-- ==== Sys2Proof/Word.lean ====
section
/-! DEFINITION. The value types of the block (00_scope.md rule R13, rule R15, rule R16): bits, bytes, 24-bit words
and the frame triple. A time is a natural number of microseconds without bound (rule R15, D1), so it is a Nat. -/

namespace Sys2Proof

/-- A bit, or the level of a line: false is 0 and low, true is 1 and high (rule R13). -/
abbrev Bit := Bool

/-- Eight bits, unsigned (rule R13). -/
abbrev Byte := BitVec 8

/-- A frame as one 24-bit word W, with W[23:16] the preamble, W[15:8] the payload, W[7:0] the checksum (rule R13). -/
abbrev Word24 := BitVec 24

/-- The frame triple of rule R16 and 40_codec.md rule R101: any three bytes; the checksum invariant is a predicate
on it, not part of the type, because TO_BITS serialises frames that break it. -/
structure Frame where
  preamble : Byte
  payload  : Byte
  checksum : Byte
deriving DecidableEq, Repr

end Sys2Proof
end

