-- ==== Sys2Proof/Syntax.lean ====
section
/-! DEFINITION. The instructions: one constructor for each row of spec/opcode_table.json. The sixteen frame rows come
first (30_encoding.md rules R80, R88), then the twelve operations (rule R90). -/

namespace Sys2Proof

/-- One constructor per row of the opcode table. A frame word is the block's analogue of an instruction word
(30_encoding.md, head of the file); an operation is the analogue of an instruction (rule R90). -/
inductive Instr where
  /-- FRAME, rule R80: preamble 0x55, then this payload and this checksum. -/
  | frame (payload checksum : Byte)
  /-- off, 0x550055, rule R88. -/
  | off
  /-- on, 0x550156, rule R88. -/
  | on
  /-- level2, 0x550257, rule R88. -/
  | level2
  /-- level3, 0x550358, rule R88. -/
  | level3
  /-- level4, 0x550459, rule R88. -/
  | level4
  /-- level5, 0x55055A, rule R88. -/
  | level5
  /-- level6, 0x55065B, rule R88. -/
  | level6
  /-- cmd7, 0x55075C, rule R88. -/
  | cmd7
  /-- cmd8, 0x55085D, rule R88. -/
  | cmd8
  /-- cmd9, 0x55095E, rule R88. -/
  | cmd9
  /-- cmd10, 0x550A5F, rule R88. -/
  | cmd10
  /-- cmd11, 0x550B60, rule R88. -/
  | cmd11
  /-- cmd12, 0x550C61, rule R88. -/
  | cmd12
  /-- cmd13, 0x550D62, rule R88. -/
  | cmd13
  /-- cmd14, 0x550E63, rule R88. -/
  | cmd14
  /-- CHECKSUM(a, b), rule R100. -/
  | checksum (a b : Byte)
  /-- ENCODE(c), rule R102; c is a command identifier. -/
  | encode (c : Nat)
  /-- TO_BITS(F), rule R104. -/
  | toBits (F : Frame)
  /-- FROM_BITS(s), rule R105; s is a sequence of at least 24 bits, first in time first. -/
  | fromBits (s : List Bit)
  /-- TIMING(b), rule R120; b is a BAUD value. -/
  | timing (b : Nat)
  /-- SEND(c), rule R123; c is a command identifier. -/
  | send (c : Nat)
  /-- TX_FRAME(W), rule R124; W is any 24-bit word. -/
  | txFrame (W : Word24)
  /-- RX_EDGE(t, d), rule R151; t is the time of the edge, d the sampled level. -/
  | rxEdge (t : Nat) (d : Bit)
  /-- RX_ENABLE, rule R162. -/
  | rxEnable
  /-- RX_DISABLE, rule R163. -/
  | rxDisable
  /-- ASM_POLL, rule R171. -/
  | asmPoll
  /-- RESET, rule R220. -/
  | reset
deriving DecidableEq, Repr

end Sys2Proof
end

