-- ==== Sys2Proof/WellFormed.lean ====
section
/-! DEFINITION. Which terms of Instr are instructions of the block: the checks the spec puts on operands. -/

namespace Sys2Proof

/-- The payload is one of the fifteen of 30_encoding.md rule R88 and the checksum is the one that belongs to it: the
word is then a command word, which has a constructor of its own. -/
def isCommandWord (payload checksum : Byte) : Bool :=
  payload.toNat ≤ 14 && checksum == 0x55 + payload

/-- The operand checks, by name. -/
inductive FormError where
  /-- `frame` with the fields of a command word: that word is written with the command's own constructor. -/
  | frameIsCommandWord
  /-- FROM_BITS with fewer than 24 bits: outside the operation's domain (40_codec.md rule R105, D17). -/
  | fromBitsTooShort
  /-- TIMING of BAUD 0: no result, refused (41_transmitter.md rule R120, D13). -/
  | timingOfBaudZero
deriving DecidableEq, Repr

/-- The check of one instruction: the error, or nothing. -/
def Instr.formError : Instr → Option FormError
  | .frame p c => if isCommandWord p c then some .frameIsCommandWord else none
  | .fromBits s => if s.length < 24 then some .fromBitsTooShort else none
  | .timing b => if b = 0 then some .timingOfBaudZero else none
  | .off | .on | .level2 | .level3 | .level4 | .level5 | .level6 | .cmd7 | .cmd8 | .cmd9 | .cmd10
  | .cmd11 | .cmd12 | .cmd13 | .cmd14 => none
  | .checksum _ _ | .encode _ | .toBits _ | .send _ | .txFrame _ | .rxEdge _ _ | .rxEnable
  | .rxDisable | .asmPoll | .reset => none

/-- The instruction passes its check. -/
abbrev Instr.WellFormed (i : Instr) : Prop := i.formError = none

/-- The instruction is a frame word (30_encoding.md rule R93, the first two kinds of row), not an operation. -/
def Instr.isFrameWord : Instr → Bool
  | .frame _ _ | .off | .on | .level2 | .level3 | .level4 | .level5 | .level6 | .cmd7 | .cmd8 | .cmd9
  | .cmd10 | .cmd11 | .cmd12 | .cmd13 | .cmd14 => true
  | .checksum _ _ | .encode _ | .toBits _ | .fromBits _ | .timing _ | .send _ | .txFrame _ | .rxEdge _ _
  | .rxEnable | .rxDisable | .asmPoll | .reset => false

end Sys2Proof
end

