-- ==== Sys2Proof/Decode.lean ====
section
/-! DEFINITION. Decoding a frame word (30_encoding.md rules R80, R81, R88, R93), and the encoder. A word is three
bytes in time order: preamble, payload, checksum (20_memory.md rule R63). Operations have no bits (rule R93), so no
word decodes to one and the encoder gives none for them. -/

namespace Sys2Proof

/-- Why a byte sequence is no frame word of the table. -/
inductive DecodeError where
  /-- Fewer than three bytes: a frame has exactly 24 bits (rule R80). -/
  | tooShort
  /-- The first byte is not 0x55, so the word is none of the table's (rule R80). The RECEIVER does not make this
  test: ASM_POLL accepts such a capture by its checksum alone (40_codec.md rule R105). -/
  | notTransmitPreamble
deriving DecidableEq, Repr

/-- W = preamble ++ payload ++ checksum (00_scope.md rule R13). -/
def Frame.word (F : Frame) : Word24 := F.preamble ++ F.payload ++ F.checksum

/-- The three bytes of a word: W[23:16], W[15:8], W[7:0] (rule R13). -/
def Frame.ofWord (W : Word24) : Frame :=
  { preamble := W.extractLsb' 16 8, payload := W.extractLsb' 8 8, checksum := W.extractLsb' 0 8 }

/-- Bit `k` in time of a word on the wire, `k` from 0 to 23: s[k] = W[23-k] (rule R81). -/
def wireBit (W : Word24) (k : Nat) : Bit := W.getLsbD (23 - k)

/-- The 24 bits of a word in time order (rule R81). -/
def wireBits (W : Word24) : List Bit := (List.range 24).map (wireBit W)

/-- The fifteen command words of rule R88, each with its full 24-bit pattern (mask 0xFFFFFF, rule R93). -/
def commandRows : List (Word24 × Instr) :=
  [(0x550055, .off), (0x550156, .on), (0x550257, .level2), (0x550358, .level3), (0x550459, .level4),
   (0x55055A, .level5), (0x55065B, .level6), (0x55075C, .cmd7), (0x55085D, .cmd8), (0x55095E, .cmd9),
   (0x550A5F, .cmd10), (0x550B60, .cmd11), (0x550C61, .cmd12), (0x550D62, .cmd13), (0x550E63, .cmd14)]

/-- Decode one word: a command word by its full pattern, else FRAME by its preamble (match 0x550000, mask 0xFF0000,
rule R93), else nothing. -/
def decodeWord (W : Word24) : Except DecodeError Instr :=
  match commandRows.lookup W with
  | some i => .ok i
  | none =>
    if W &&& 0xFF0000 = 0x550000 then .ok (.frame (Frame.ofWord W).payload (Frame.ofWord W).checksum)
    else .error .notTransmitPreamble

/-- Decode the first three bytes, in time order, and return the rest. Total; rejects by name. -/
def decode : List Byte → Except DecodeError (Instr × List Byte)
  | b0 :: b1 :: b2 :: rest =>
    match decodeWord (Frame.word ⟨b0, b1, b2⟩) with
    | .ok i => .ok (i, rest)
    | .error e => .error e
  | [_, _] => .error .tooShort
  | [_] => .error .tooShort
  | [] => .error .tooShort

/-- The frame word of an instruction, written from the table of rule R88 and from rule R80; an operation has none
(rule R93). -/
def encodeWord : Instr → Option Word24
  | .frame p c => some (Frame.word ⟨0x55, p, c⟩)
  | .off => some 0x550055
  | .on => some 0x550156
  | .level2 => some 0x550257
  | .level3 => some 0x550358
  | .level4 => some 0x550459
  | .level5 => some 0x55055A
  | .level6 => some 0x55065B
  | .cmd7 => some 0x55075C
  | .cmd8 => some 0x55085D
  | .cmd9 => some 0x55095E
  | .cmd10 => some 0x550A5F
  | .cmd11 => some 0x550B60
  | .cmd12 => some 0x550C61
  | .cmd13 => some 0x550D62
  | .cmd14 => some 0x550E63
  | .checksum _ _ | .encode _ | .toBits _ | .fromBits _ | .timing _ | .send _ | .txFrame _ | .rxEdge _ _
  | .rxEnable | .rxDisable | .asmPoll | .reset => none

/-- The three bytes of a word in time order (20_memory.md rule R63). -/
def Frame.bytes (F : Frame) : List Byte := [F.preamble, F.payload, F.checksum]

/-- The bytes of an instruction's frame word, in time order. -/
def encode (i : Instr) : Option (List Byte) := (encodeWord i).map fun W => (Frame.ofWord W).bytes

/-- The instruction the decoder reads from a table word (bit 0 of `w` is W[0], rule R93): the word is laid out as the
three bytes the wire carries, and they are given to `decode`. Operation rows have no bits, so a number of 0 bits is
the word 0, which no row matches. -/
def decodeTableWord (nbits w : Nat) : Option Instr :=
  if nbits ≤ 24 ∧ w < 2 ^ 24 then
    match decode (Frame.ofWord (BitVec.ofNat 24 w)).bytes with
    | .ok (i, _) => some i
    | .error _ => none
  else none

end Sys2Proof
end

