-- ==== Sys2Proof/Config.lean ====
section
/-! DEFINITION. The constants of 00_scope.md rule R7, the parameters of rules R8 to R11 with their defaults, and the
free values (values the spec leaves undetermined: 93_implementation_defined.md U3 and U5). -/

namespace Sys2Proof

/-! ## Constants (rule R7) -/

/-- FRAME_BITS: bits per frame. -/
@[simp] def frameBits : Nat := 24

/-- FIELD_BITS: bits per field. -/
@[simp] def fieldBits : Nat := 8

/-- PREAMBLE: the constant first byte of a transmitted frame. -/
@[simp] def preambleByte : Byte := 0x55

/-- SETTLE_US: the settle delay, whatever the baud. -/
@[simp] def settleUs : Nat := 100

/-- PORCH_CYCLES: cycle durations in the front porch. -/
@[simp] def porchCycles : Nat := 6

/-- SILENCE_THRESHOLD_US: the inter-edge gap above which the receiver restarts; it does not scale with BAUD (D34). -/
@[simp] def silenceThresholdUs : Nat := 100000

/-- US_PER_SECOND: the numerator of `cycle_duration`. -/
@[simp] def usPerSecond : Nat := 1000000

/-! ## Parameters (rules R8 to R11) -/

/-- The Transmit Timing Profile (10_state.md rule R22): three natural numbers of microseconds. -/
structure TimingProfile where
  cycleDuration : Nat
  halfCycle     : Nat
  frontPorch    : Nat
deriving DecidableEq, Repr

/-- What drives the two receive lines: the environment, or this block's own transmit lines with no delay (the
loopback of 00_scope.md rule R18, D29). Mark: DESIGN CHOICE, log 10. -/
inductive Wiring where
  | separate
  | loopback
deriving DecidableEq, Repr

/-- The default command table of 30_encoding.md rule R88: identifier `i` maps to payload `i`, 15 entries (D14). -/
def defaultCmdTable : List Byte :=
  [0x00, 0x01, 0x02, 0x03, 0x04, 0x05, 0x06, 0x07, 0x08, 0x09, 0x0A, 0x0B, 0x0C, 0x0D, 0x0E]

/-- The parameters of the step relation (10_state.md rule R21): fixed at configuration, written by no operation.
A command identifier is its index in `cmdTable` (D14); `onId` says which identifier is the command `on` (rule R9).
Mark: DESIGN CHOICE, log 1: the parameters are carried in State, so every statement over states is over all of them. -/
structure Config where
  baud           : Nat
  cmdTable       : List Byte
  onId           : Nat
  accCapacity    : Nat
  frameThreshold : Nat
  wiring         : Wiring
deriving DecidableEq, Repr

/-- What rules R8 to R11 admit: BAUD at least 1, both counts at least 24, distinct identifiers with distinct
payloads, and `on` mapped to 0x01. -/
abbrev Config.wf (c : Config) : Prop :=
  1 ≤ c.baud ∧ 24 ≤ c.accCapacity ∧ 24 ≤ c.frameThreshold ∧ c.cmdTable.Nodup ∧ c.cmdTable[c.onId]? = some 0x01

/-- The defaults of rules R8, R9, R10 and R11. -/
def Config.default : Config :=
  { baud := 600, cmdTable := defaultCmdTable, onId := 1, accCapacity := 25, frameThreshold := 24,
    wiring := .separate }

/-! ## Free values -/

/-- The level sampled when `data_in` changes at the instant of the edge (42_receiver.md rule R161, U3): either level,
under no law. Applied to the draw counter of State, so two samples are two draws. Log 8. -/
opaque Config.freeSample : Nat → Bit

/-- Whether the receiver sees a clock pulse of zero width (U5): the spec does not say. Applied to the draw counter.
Log 9. -/
opaque Config.freePulseSeen : Nat → Bool

end Sys2Proof
end

