-- ==== Sys2Proof/Machine/Timing.lean ====
section
/-! DEFINITION. TIMING as a function (41_transmitter.md rule R120), and the durations derived from a profile (rules
R121, R122, R128). Apart from State.lean, which uses it for reset. -/

namespace Sys2Proof.Machine

/-- TIMING(b) for b ≥ 1 (rule R120): both divisions truncate. At b = 0 the operation is refused before this is
called (D13, log 11). -/
def timingOf (b : Nat) : TimingProfile :=
  { cycleDuration := usPerSecond / b
    halfCycle := usPerSecond / b / 2
    frontPorch := porchCycles * (usPerSecond / b) }

/-- The bit period on the wire, P = 2*S + 2*H (rule R122). -/
def bitPeriod (p : TimingProfile) : Nat := 2 * settleUs + 2 * p.halfCycle

/-- From the start of TX_FRAME to the rest state: F + 24*P (rule R122). -/
def frameTime (p : TimingProfile) : Nat := p.frontPorch + 24 * bitPeriod p

/-- The start of bit `k`, counted from the start of the frame: F + k*P (rule R128). -/
def bitStart (p : TimingProfile) (k : Nat) : Nat := p.frontPorch + k * bitPeriod p

end Sys2Proof.Machine
end

