-- ==== Sys2Proof/Machine/State.lean ====
section
/-! DEFINITION. The machine's state as plain data: every register of 10_state.md, the environment's side of the
block (rule R37), the parameters (rule R21), and the result last returned (00_scope.md rule R16); the reasons a step
can stop; the state after reset (rule R40). -/

namespace Sys2Proof.Machine

/-! ## Results of operations (00_scope.md rule R16) -/

/-- FROM_BITS: Result<Frame, FrameError> with the one error ChecksumMismatch. -/
inductive FrameResult where
  | ok (F : Frame)
  | checksumMismatch
deriving DecidableEq, Repr

/-- ENCODE. -/
inductive EncodeResult where
  | ok (F : Frame)
  | unknownCommandError (c : Nat)
deriving DecidableEq, Repr

/-- RX_EDGE (D25): the index is that of the slot the sample went to, or would have gone to. -/
inductive EdgeResult where
  | ignored
  | stored (i : Nat) (d : Bit)
  | dropped (i : Nat)
deriving DecidableEq, Repr

/-- ASM_POLL (D21): the one decode failure is ChecksumMismatch. -/
inductive PollResult where
  | noFrame
  | decoded (F : Frame)
  | decodeFailure
deriving DecidableEq, Repr

/-- SEND and TX_FRAME (D19, D20). -/
inductive SendResult where
  | started
  | busy
  | unknownCommandError (c : Nat)
deriving DecidableEq, Repr

/-- The value an operation returns to its caller; `nothing` for the operations that return nothing. -/
inductive OpResult where
  | nothing
  | byte (b : Byte)
  | encode (r : EncodeResult)
  | bits (s : List Bit)
  | decode (r : FrameResult)
  | timing (p : TimingProfile)
  | send (r : SendResult)
  | edge (r : EdgeResult)
  | poll (r : PollResult)
deriving DecidableEq, Repr

/-! ## Events of the environment -/

/-- What the environment can do at an instant: set the levels of the two input lines (rule R37), or have an operation
performed (30_encoding.md rules R90, R91). RX_EDGE is here too, for an environment that supplies edges as events
(rule R34). -/
inductive Event where
  | lines (clockIn dataIn : Bit)
  | checksum (a b : Byte)
  | encode (c : Nat)
  | toBits (F : Frame)
  | fromBits (s : List Bit)
  | timing (b : Nat)
  | send (c : Nat)
  | txFrame (W : Word24)
  | rxEdge (t : Nat) (d : Bit)
  | rxEnable
  | rxDisable
  | asmPoll
  | reset
deriving DecidableEq, Repr

/-- An event and its instant: one line of a trace (rule R91). -/
structure Timed where
  time  : Nat
  event : Event
deriving DecidableEq, Repr

/-! ## Registers -/

/-- The six waiting periods of the transmitter (rule R26). -/
inductive TxPhase where
  | idle
  | porch
  | setup
  | high
  | fall
  | low
deriving DecidableEq, Repr

/-- out_status (rule R36). -/
inductive OutStatus where
  | none
  | ok
  | bad
deriving DecidableEq, Repr

/-- The transmitter's registers (rules R23 to R27). -/
structure TxState where
  /-- tx_frame: the word in flight (R23). -/
  frame    : Word24
  /-- tx_busy (R24). -/
  busy     : Bit
  /-- tx_phase (R26). -/
  phase    : TxPhase
  /-- tx_bit: the index of the wire bit being sent, 0 to 23 (R27). -/
  bit      : Nat
  /-- tx_deadline: when the present phase ends (R27). -/
  deadline : Nat
  /-- clock_out (R25). -/
  clockOut : Bit
  /-- data_out (R25). -/
  dataOut  : Bit
deriving DecidableEq, Repr

/-- The receiver's registers (rules R29 to R34). -/
structure RxState where
  /-- last_edge_time (R29). -/
  lastEdgeTime : Nat
  /-- bit_count, without bound (R30, D7). -/
  bitCount     : Nat
  /-- acc: ACC_CAPACITY slots of one bit, slot 0 first (R31). Log 23. -/
  acc          : List Bit
  /-- status_led (R32). -/
  statusLed    : Bit
  /-- rx_enabled (R33). -/
  rxEnabled    : Bit
  /-- cin_prev: the level of clock_in last seen by the edge detector (R34). -/
  cinPrev      : Bit
deriving DecidableEq, Repr

/-- The assembler's output latch (rules R35, R36). -/
structure OutLatch where
  /-- out_payload (R35). -/
  payload : Byte
  /-- out_status (R36). -/
  status  : OutStatus
deriving DecidableEq, Repr

/-- The three pulse outputs of the port list (60_exceptions.md rule R207): each is 1 on the clock of the operation it
reports and 0 from the next clock on. They carry no rule's register. Log 24. -/
structure Pulses where
  /-- tx_unknown: a SEND of this clock raised UnknownCommandError. -/
  txUnknown : Bit
  /-- rx_ok: an ASM_POLL of this clock returned Decoded. -/
  rxOk      : Bit
  /-- rx_bad: an ASM_POLL of this clock returned DecodeFailure. -/
  rxBad     : Bit
deriving DecidableEq, Repr

/-- No pulse. -/
def Pulses.low : Pulses := { txUnknown := false, rxOk := false, rxBad := false }

/-- The environment's side (rule R37), not state of the block. -/
structure Env where
  /-- now (R37). -/
  now       : Nat
  /-- The level the environment drives on clock_in (R37); not connected in loopback. -/
  clockIn   : Bit
  /-- The level the environment drives on data_in (R37); not connected in loopback. -/
  dataIn    : Bit
  /-- The model's own: the instant of the last change of the level of data_in (R161, U3). Log 8. -/
  dataMoved : Option Nat
  /-- The events still to come (R91). Log 2. -/
  script    : List Timed
  /-- The model's own: how many free values have been drawn. Log 8, log 9. -/
  draws     : Nat
deriving DecidableEq, Repr

/-- The whole machine. -/
structure State where
  /-- The parameters (R21); no operation writes them. Log 1. -/
  cfg    : Config
  /-- The timing profile registers (R22). -/
  timing : TimingProfile
  tx     : TxState
  rx     : RxState
  latch  : OutLatch
  /-- The pulse outputs on the present clock (60_exceptions.md rule R207). Log 24. -/
  pulses : Pulses
  env    : Env
  /-- The model's own: what the last operation returned to its caller (R16). Log 6. -/
  result : OpResult
deriving DecidableEq, Repr

/-! ## Reasons to stop -/

/-- Faults. -/
inductive Fault where
  /-- Raised by ASM_POLL when the accumulator has fewer than 24 slots: AccRead(0, 24) is then not defined
  (00_scope.md rule R14). Safe: no state with the accumulator's form (rule R31) reaches it. Log 12. -/
  | accReadOutOfRange
deriving DecidableEq, Repr

/-- Refusals. -/
inductive Refusal where
  /-- Raised by exec's arm of an instruction that has no meaning yet. Safe. No arm raises it now. -/
  | notModelled (mnemonic : String)
  /-- Raised by FROM_BITS on fewer than 24 bits: outside the operation's domain, refused (U7, D17). Safe. Log 11. -/
  | fromBitsTooShort
  /-- Raised by TIMING(0), and by RESET when BAUD is 0: no configuration of the block (U8, D13). Safe. Log 11. -/
  | baudZero
deriving DecidableEq, Repr

/-- The outcome of one step or one instruction. -/
abbrev Result := Host.Outcome State Fault Refusal

/-! ## Setters, one per group -/

def State.withTx (s : State) (tx : TxState) : State := { s with tx := tx }
def State.withRx (s : State) (rx : RxState) : State := { s with rx := rx }
def State.withLatch (s : State) (latch : OutLatch) : State := { s with latch := latch }
def State.withPulses (s : State) (pulses : Pulses) : State := { s with pulses := pulses }
def State.withEnv (s : State) (env : Env) : State := { s with env := env }
def State.withResult (s : State) (r : OpResult) : State := { s with result := r }

/-! ## The accumulator's form -/

/-- The accumulator has exactly ACC_CAPACITY slots (rule R31). A list of that length is its one canonical form. -/
abbrev Memory.wf (capacity : Nat) (acc : List Bit) : Prop := acc.length = capacity

/-! ## Reset (rule R40) -/

/-- Every register at the value of rule R40's table, for the parameters given; `now` is 0 (rule R220). The
environment's lines are low and nothing is to come, no pulse is up, and the model's own fields are empty: DESIGN
CHOICE, log 6, log 7, log 8, log 24. -/
def State.resetFor (c : Config) : State :=
  { cfg := c
    timing := timingOf c.baud
    tx := { frame := 0, busy := false, phase := .idle, bit := 0, deadline := 0, clockOut := false, dataOut := false }
    rx := { lastEdgeTime := 0, bitCount := 0, acc := List.replicate c.accCapacity false, statusLed := false,
            rxEnabled := false, cinPrev := false }
    latch := { payload := 0, status := .none }
    pulses := .low
    env := { now := 0, clockIn := false, dataIn := false, dataMoved := none, script := [], draws := 0 }
    result := .nothing }

/-- The machine right after reset, with the default parameters. -/
def State.reset : State := State.resetFor Config.default

end Sys2Proof.Machine
end

