-- ==== Sys2Proof/Machine/Flags.lean ====
section
/-! DEFINITION. The status items of 10_state.md rule R38 and the codec's one computation with a carry, the checksum
(40_codec.md rules R100, R101, R109). The block has no condition codes: the carry is recorded nowhere. -/

namespace Sys2Proof.Machine

/-- CHECKSUM(a, b): the low 8 bits of the sum (rule R100). -/
def checksum (a b : Byte) : Byte := BitVec.ofNat 8 ((a.toNat + b.toNat) % 256)

/-- The checksum invariant of a frame (rule R101). -/
def checksumHolds (F : Frame) : Bool := F.checksum == checksum F.preamble F.payload

/-- The numeric code of out_status: NONE 0, OK 1, BAD 2; 3 is never held (10_state.md rule R36). -/
def OutStatus.code : OutStatus → BitVec 2
  | .none => 0
  | .ok => 1
  | .bad => 2

/-- The latch after a frame that passed: out_payload and out_status = OK (43_assembler.md rule R171, step 4). -/
def OutLatch.accept (F : Frame) (_ : OutLatch) : OutLatch := { payload := F.payload, status := .ok }

/-- The latch after a frame that failed: out_status = BAD, out_payload kept (rule R171, step 4). -/
def OutLatch.reject (l : OutLatch) : OutLatch := { l with status := .bad }

/-- RX_EDGE step 5: the indicator toggles (42_receiver.md rules R151, R156). -/
def RxState.toggleLed (r : RxState) : RxState := { r with statusLed := !r.statusLed }

/-- `rx_enabled` set to 1 by RX_ENABLE (rule R162). -/
def RxState.enable (r : RxState) : RxState := { r with rxEnabled := true }

/-- `rx_enabled` set to 0 by RX_DISABLE (rule R163). -/
def RxState.disable (r : RxState) : RxState := { r with rxEnabled := false }

/-- A result raises tx_unknown: a SEND that ended in UnknownCommandError (60_exceptions.md rule R207). -/
def OpResult.sentUnknown : OpResult → Bit
  | .send (.unknownCommandError _) => true
  | .send .started | .send .busy | .nothing | .byte _ | .encode _ | .bits _ | .decode _ | .timing _ | .edge _
  | .poll _ => false

/-- A result raises rx_ok: an ASM_POLL that returned Decoded (rule R207). -/
def OpResult.polledOk : OpResult → Bit
  | .poll (.decoded _) => true
  | .poll .noFrame | .poll .decodeFailure | .nothing | .byte _ | .encode _ | .bits _ | .decode _ | .timing _ | .send _
  | .edge _ => false

/-- A result raises rx_bad: an ASM_POLL that returned DecodeFailure (rule R207). -/
def OpResult.polledBad : OpResult → Bit
  | .poll .decodeFailure => true
  | .poll .noFrame | .poll (.decoded _) | .nothing | .byte _ | .encode _ | .bits _ | .decode _ | .timing _ | .send _
  | .edge _ => false

/-- The pulses of a clock once an operation of it has returned `r`: a pulse that is up stays up for the clock. -/
def Pulses.raisedBy (r : OpResult) (p : Pulses) : Pulses :=
  { txUnknown := r.sentUnknown || p.txUnknown, rxOk := r.polledOk || p.rxOk, rxBad := r.polledBad || p.rxBad }

/-- The error taxonomy of 60_exceptions.md rule R190, with what each records. -/
inductive LinkError where
  | unknownCommandError (c : Nat)
  | checksumMismatch
  | bufferOverrun (i : Nat)
deriving DecidableEq, Repr

/-- The numeric codes of rule R190 (D26). -/
def LinkError.code : LinkError → Nat
  | .unknownCommandError _ => 1
  | .checksumMismatch => 2
  | .bufferOverrun _ => 3

/-- Which error of the taxonomy a result reports, if any (rule R190, last column). BufferOverrun is visible only as
the result `Dropped` (rule R193). -/
def OpResult.error? : OpResult → Option LinkError
  | .encode (.unknownCommandError c) => some (.unknownCommandError c)
  | .send (.unknownCommandError c) => some (.unknownCommandError c)
  | .decode .checksumMismatch => some .checksumMismatch
  | .poll .decodeFailure => some .checksumMismatch
  | .edge (.dropped i) => some (.bufferOverrun i)
  | .encode (.ok _) | .send .started | .send .busy | .decode (.ok _) | .poll .noFrame | .poll (.decoded _)
  | .edge .ignored | .edge (.stored _ _) | .nothing | .byte _ | .bits _ | .timing _ => none

end Sys2Proof.Machine
end

