-- ==== Sys2Proof/Machine/Operands.lean ====
section
/-! DEFINITION. Every form an operand takes: command identifiers (TableRead), frames and bit sequences (TO_BITS and
FROM_BITS as functions), accumulator slots (AccRead, AccWrite), bits of tx_frame, and the levels of the lines
(00_scope.md rule R14). -/

namespace Sys2Proof.Machine

/-! ## The command table -/

/-- TableRead(c): the payload CMD_TABLE gives identifier `c`, or absent (rule R14; identifiers are indexes, D14). -/
def tableRead (c : Config) (id : Nat) : Option Byte := c.cmdTable[id]?

/-- ENCODE(c) as a function (40_codec.md rule R102, 30_encoding.md rule R82). -/
def encodeCommand (c : Config) (id : Nat) : EncodeResult :=
  match tableRead c id with
  | none => .unknownCommandError id
  | some p => .ok { preamble := preambleByte, payload := p, checksum := checksum preambleByte p }

/-! ## Frames and bit sequences -/

/-- The eight bits of a byte, most significant first (20_memory.md rule R62). -/
def byteBits (b : Byte) : List Bit := (List.range 8).map fun k => b.getLsbD (7 - k)

/-- TO_BITS(F) as a function: preamble, payload, checksum, each most significant bit first (40_codec.md rule R104). -/
def frameToBits (F : Frame) : List Bit := byteBits F.preamble ++ byteBits F.payload ++ byteBits F.checksum

/-- The byte whose bit 7 is `s[base]`: the sum over k of s[base+k] * 2^(7-k) (30_encoding.md rule R83). -/
def fieldAt (s : List Bit) (base : Nat) : Byte :=
  BitVec.ofNat 8 (((List.range 8).map fun k => (s.getD (base + k) false).toNat * 2 ^ (7 - k)).sum)

/-- The three fields of the first 24 bits (rule R83); bits beyond the 24th are ignored (40_codec.md rule R105). -/
def assembleFrame (s : List Bit) : Frame :=
  { preamble := fieldAt s 0, payload := fieldAt s 8, checksum := fieldAt s 16 }

/-- The one validation the receive side makes: the checksum invariant over the frame's OWN preamble (rule R105,
90_conflicts.md C6). -/
def validateFrame (F : Frame) : FrameResult := if checksumHolds F then .ok F else .checksumMismatch

/-- FROM_BITS(s) as a function, for a sequence of at least 24 bits (rule R105). -/
def bitsToFrame (s : List Bit) : FrameResult := validateFrame (assembleFrame s)

/-! ## The accumulator -/

/-- AccRead(addr, n): `n` slots from `addr`, defined only inside the accumulator (rule R14). -/
def accRead (acc : List Bit) (addr n : Nat) : Option (List Bit) :=
  if addr + n ≤ acc.length then some ((acc.drop addr).take n) else none

/-- AccWrite: slot `i` takes `d` if `i` is below the capacity; otherwise nothing is written (20_memory.md rule R61). -/
def accWrite (capacity : Nat) (acc : List Bit) (i : Nat) (d : Bit) : List Bit :=
  if i < capacity then acc.set i d else acc

/-- One slot of the accumulator, for statements about what is unchanged. -/
def accSlot (acc : List Bit) (i : Nat) : Option Bit := acc[i]?

/-! ## Lines -/

/-- level(clock_in): the environment's level, or in loopback this block's own clock_out (rules R14, R37, D29). -/
def levelClockIn (s : State) : Bit :=
  match s.cfg.wiring with
  | .separate => s.env.clockIn
  | .loopback => s.tx.clockOut

/-- level(data_in), likewise. -/
def levelDataIn (s : State) : Bit :=
  match s.cfg.wiring with
  | .separate => s.env.dataIn
  | .loopback => s.tx.dataOut

/-- The bit of tx_frame that `tx_bit = k` names: tx_frame[23 - k] (10_state.md rule R26, R41). -/
def currentBit (t : TxState) : Bit := wireBit t.frame t.bit

end Sys2Proof.Machine
end

