-- ==== Sys2Proof/Machine/Ops.lean ====
section
/-! DEFINITION. The shared operations the meanings call: returning a result and raising an error (00_scope.md rule
R14), driving the lines, starting a frame, TX_STEP (41_transmitter.md rules R124, R127), sampling an edge and the edge
detector (42_receiver.md rule R151, 10_state.md rule R34), consuming a frame (43_assembler.md rule R171), and taking
the reset values (70_reset_and_hazards.md rule R220). -/

namespace Sys2Proof.Machine

/-! ## Returning, and raising an error -/

/-- `r` is handed to the caller, and shown on the pulse outputs if it is one they report (60_exceptions.md rule
R207). -/
def State.returning (s : State) (r : OpResult) : State := (s.withResult r).withPulses (s.pulses.raisedBy r)

/-- The operation completes and returns `r`; no register is written. -/
def answer (r : OpResult) (s : State) : Result := .next (s.returning r)

/-- `raise <Error>(info)`, the block's only exception (rule R14, 60_exceptions.md rules R190, R199, R200): the
operation ends at once, writes nothing further, and returns the error to its caller. No state is saved, no mode
changes, control goes nowhere, so there is nothing to return from. `r` is the error in the operation's result type. -/
def raise (r : OpResult) (s : State) : Result := answer r s

/-! ## Driving the lines -/

/-- The level of data_in may change now: remember the instant if it does (rule R161, U3). -/
def noteDataIn (old new : Bit) (e : Env) : Env := if old = new then e else { e with dataMoved := some e.now }

/-- drive(clock_out, v) (rule R14, 10_state.md rule R25). -/
def driveClock (v : Bit) (s : State) : State := s.withTx { s.tx with clockOut := v }

/-- What the environment's side notes when data_out becomes `v`: in loopback the wire carries the change to data_in
with no delay (D29); otherwise nothing. -/
def carryData (v : Bit) (s : State) : Env :=
  match s.cfg.wiring with
  | .separate => s.env
  | .loopback => noteDataIn s.tx.dataOut v s.env

/-- drive(data_out, v) (rule R14, 10_state.md rule R25). -/
def driveData (v : Bit) (s : State) : State := (s.withTx { s.tx with dataOut := v }).withEnv (carryData v s)

/-- The sequencer moves: tx_phase, tx_bit and tx_deadline (10_state.md rule R27). -/
def moveTx (phase : TxPhase) (bit : Nat) (deadline : Nat) (s : State) : State :=
  s.withTx { s.tx with phase := phase, bit := bit, deadline := deadline }

/-! ## The transmitter -/

/-- TX_FRAME(W) when the transmitter is free (rule R124): latch the word, force both lines low, enter PORCH. -/
def startFrame (W : Word24) (s : State) : State :=
  let low := driveData false (driveClock false s)
  let moved := moveTx .porch 0 (s.env.now + s.timing.frontPorch) low
  moved.withTx { moved.tx with frame := W, busy := true }

/-- A request to transmit `W` (rule R124): dropped with Busy while a frame is in flight, else started. -/
def requestFrame (W : Word24) (s : State) : Result :=
  if s.tx.busy then answer (.send .busy) s else answer (.send .started) (startFrame W s)

/-- The rest state after bit 23 (rule R127, LOW, else branch): both lines high in one step, IDLE, not busy. tx_bit
and tx_deadline stay (95_test_vectors.md V19). -/
def enterRest (s : State) : State :=
  let high := driveData true (driveClock true s)
  high.withTx { high.tx with phase := .idle, busy := false }

/-- Put wire bit `k` on data_out and wait for the settle delay: the entry to SETUP (rule R127, PORCH and LOW). -/
def setupBit (k : Nat) (s : State) : State :=
  moveTx .setup k (s.tx.deadline + settleUs) (driveData (wireBit s.tx.frame k) s)

/-- TX_STEP (rule R127): each new deadline is the old one plus the duration of the phase entered. In IDLE it is not
enabled. -/
def txStep (s : State) : State :=
  match s.tx.phase with
  | .idle => s
  | .porch => setupBit 0 s
  | .setup => moveTx .high s.tx.bit (s.tx.deadline + s.timing.halfCycle) (driveClock true s)
  | .high => moveTx .fall s.tx.bit (s.tx.deadline + settleUs) (driveClock false s)
  | .fall => moveTx .low s.tx.bit (s.tx.deadline + s.timing.halfCycle) (driveData false s)
  | .low => if s.tx.bit < 23 then setupBit (s.tx.bit + 1) s else enterRest s

/-- TX_STEP is enabled: a frame is in flight and its phase ends now (rule R127). -/
def txDue (s : State) : Bool := s.tx.phase != .idle && s.env.now == s.tx.deadline

/-! ## The receiver -/

/-- RX_EDGE step 1: the count the sample is stored at. Zero after a silence longer than the threshold; strict, and
written without subtraction (rules R151, R152, R159). -/
def resyncedCount (t : Nat) (r : RxState) : Nat :=
  if t > r.lastEdgeTime + silenceThresholdUs then 0 else r.bitCount

/-- RX_EDGE steps 1 to 5 for an edge that is not ignored (rule R151). -/
def sampleEdge (capacity : Nat) (t : Nat) (d : Bit) (r : RxState) : RxState :=
  let i := resyncedCount t r
  RxState.toggleLed { r with lastEdgeTime := t, acc := accWrite capacity r.acc i d, bitCount := i + 1 }

/-- What RX_EDGE returns for an edge that is not ignored (rule R151, step 3). -/
def sampleResult (capacity : Nat) (t : Nat) (d : Bit) (r : RxState) : EdgeResult :=
  if resyncedCount t r < capacity then .stored (resyncedCount t r) d else .dropped (resyncedCount t r)

/-- The edge detector has something to do: clock_in is not at the level last seen (10_state.md rule R34). -/
def edgeDue (s : State) : Bool := s.rx.cinPrev != levelClockIn s

/-- The detector takes the level it sees: `cin_prev <- level(clock_in)`, in every case (rule R34). -/
def seeClock (s : State) : State := s.withRx { s.rx with cinPrev := levelClockIn s }

/-- A rising edge: enabled, last seen low, now high (rule R34). -/
def risingEdge (s : State) : Bool := s.rx.rxEnabled && !s.rx.cinPrev && levelClockIn s

/-- The pulse being seen has zero width: in loopback the transmitter lowers the clock again at this very instant
(U5). -/
def zeroWidthPulse (s : State) : Bool :=
  s.cfg.wiring == .loopback && s.tx.phase == .high && s.tx.deadline == s.env.now

/-- The level of data_in is changing at this instant, so a sample taken now is undetermined (rule R161, U3). -/
def dataUnsettled (s : State) : Bool := s.env.dataMoved == some s.env.now

/-- One more free value has been drawn. -/
def countDraw (s : State) : State := s.withEnv { s.env with draws := s.env.draws + 1 }

/-- Does the receiver see this edge? Always, but for a zero-width pulse, where it is a free value (U5, log 9). -/
def pulseSeen (s : State) : Bool × State :=
  if zeroWidthPulse s then (Config.freePulseSeen s.env.draws, countDraw s) else (true, s)

/-- The level the detector hands to RX_EDGE: level(data_in), or a free value when it is changing now (rule R161, U3,
log 8). -/
def sampleData (s : State) : Bit × State :=
  if dataUnsettled s then (Config.freeSample s.env.draws, countDraw s) else (levelDataIn s, s)

/-- One step of the edge detector (rule R34, 60_exceptions.md rule R196): the state with the level seen, and the
sample of the RX_EDGE it causes, if it causes one. This is the whole of "taking the interrupt": nothing is saved
(rule R199). -/
def detectEdge (s : State) : State × Option Bit :=
  if risingEdge s then
    let seen := pulseSeen (seeClock s)
    if seen.1 then
      let sampled := sampleData seen.2
      (sampled.2, some sampled.1)
    else (seen.2, none)
  else (seeClock s, none)

/-! ## The assembler -/

/-- The capture is complete: "reaches" is "is at least" (43_assembler.md rule R172). -/
def captureComplete (s : State) : Bool := decide (s.cfg.frameThreshold ≤ s.rx.bitCount)

/-- The consume of a capture whose validation gave `r` (rule R171, steps 2 to 4): the count is 0, the latch and the
result follow the validation. acc and last_edge_time are not touched (rule R175). -/
def consume (r : FrameResult) (s : State) : State :=
  let emptied := s.withRx { s.rx with bitCount := 0 }
  match r with
  | .ok F => (emptied.withLatch (s.latch.accept F)).returning (.poll (.decoded F))
  | .checksumMismatch => (emptied.withLatch s.latch.reject).returning (.poll .decodeFailure)

/-- A received frame is consumed: validated and latched, or discarded (rules R171, R89, R192). -/
def receiveFrame (F : Frame) (s : State) : Result := .next (consume (validateFrame F) s)

/-! ## Reset -/

/-- RESET (rule R220): every register at its reset value for these parameters, `now` at 0. The environment keeps its
lines and what it has still to do; the draw counter is kept so that no free value is drawn twice. Log 16. -/
def resetRegisters (s : State) : State :=
  (State.resetFor s.cfg).withEnv { s.env with now := 0, dataMoved := none }

end Sys2Proof.Machine
end

