-- ==== Sys2Proof/Machine/Assembler.lean ====
section
/-! DEFINITION. The meaning of ASM_POLL (43_assembler.md rule R171). -/

namespace Sys2Proof.Machine

/-- ASM_POLL, one atomic step: NoFrame below the threshold, else slots 0 to 23 are read, the count is reset, and the
frame is latched or discarded. The fault is AccRead outside the accumulator, which a state with the accumulator's form
never meets (log 12). -/
def execAsmPoll (s : State) : Result :=
  if captureComplete s then
    match accRead s.rx.acc 0 24 with
    | none => .fault .accReadOutOfRange
    | some bs => .next (consume (bitsToFrame bs) s)
  else answer (.poll .noFrame) s

end Sys2Proof.Machine
end

