-- ==== Sys2Proof/Machine/Codec.lean ====
section
/-! DEFINITION. The meanings of the Frame Codec's four operations (40_codec.md). They are pure: they write no register
and only return their result (rule R199: an error ends the operation and goes to its caller). -/

namespace Sys2Proof.Machine

/-- CHECKSUM(a, b) (rule R100). -/
def execChecksum (a b : Byte) (s : State) : Result := answer (.byte (checksum a b)) s

/-- ENCODE(c) (rule R102): UnknownCommandError exactly when `c` is not in the table. -/
def execEncode (c : Nat) (s : State) : Result :=
  match encodeCommand s.cfg c with
  | .ok F => answer (.encode (.ok F)) s
  | .unknownCommandError id => raise (.encode (.unknownCommandError id)) s

/-- TO_BITS(F) (rule R104): any frame, whether or not it satisfies the invariant. -/
def execToBits (F : Frame) (s : State) : Result := answer (.bits (frameToBits F)) s

/-- FROM_BITS(bs) (rule R105). Fewer than 24 bits are outside the operation's domain and refused (U7, D17, log 11). -/
def execFromBits (bs : List Bit) (s : State) : Result :=
  if bs.length < 24 then .refused .fromBitsTooShort
  else
    match bitsToFrame bs with
    | .ok F => answer (.decode (.ok F)) s
    | .checksumMismatch => raise (.decode .checksumMismatch) s

end Sys2Proof.Machine
end

