-- ==== Sys2Proof/Machine/Frames.lean ====
section
/-! DEFINITION. The meanings of the sixteen frame words (30_encoding.md rules R80, R88, R89). A frame word is executed
when the capture that holds it is consumed: validated, and on success its payload byte delivered (43_assembler.md rule
R171). Mark: DESIGN CHOICE, log 3. -/

namespace Sys2Proof.Machine

/-- FRAME: preamble 0x55, this payload, this checksum; delivered if the checksum is 0x55 + payload, else discarded as
ChecksumMismatch (rules R80, R105). -/
def execFrame (payload cks : Byte) (s : State) : Result := receiveFrame ⟨preambleByte, payload, cks⟩ s

/-- off, 0x550055 (rule R88). -/
def execOff (s : State) : Result := receiveFrame ⟨0x55, 0x00, 0x55⟩ s

/-- on, 0x550156 (rule R88). -/
def execOn (s : State) : Result := receiveFrame ⟨0x55, 0x01, 0x56⟩ s

/-- level2, 0x550257 (rule R88). -/
def execLevel2 (s : State) : Result := receiveFrame ⟨0x55, 0x02, 0x57⟩ s

/-- level3, 0x550358 (rule R88). -/
def execLevel3 (s : State) : Result := receiveFrame ⟨0x55, 0x03, 0x58⟩ s

/-- level4, 0x550459 (rule R88). -/
def execLevel4 (s : State) : Result := receiveFrame ⟨0x55, 0x04, 0x59⟩ s

/-- level5, 0x55055A (rule R88). -/
def execLevel5 (s : State) : Result := receiveFrame ⟨0x55, 0x05, 0x5A⟩ s

/-- level6, 0x55065B (rule R88). -/
def execLevel6 (s : State) : Result := receiveFrame ⟨0x55, 0x06, 0x5B⟩ s

/-- cmd7, 0x55075C (rule R88). -/
def execCmd7 (s : State) : Result := receiveFrame ⟨0x55, 0x07, 0x5C⟩ s

/-- cmd8, 0x55085D (rule R88). -/
def execCmd8 (s : State) : Result := receiveFrame ⟨0x55, 0x08, 0x5D⟩ s

/-- cmd9, 0x55095E (rule R88). -/
def execCmd9 (s : State) : Result := receiveFrame ⟨0x55, 0x09, 0x5E⟩ s

/-- cmd10, 0x550A5F (rule R88). -/
def execCmd10 (s : State) : Result := receiveFrame ⟨0x55, 0x0A, 0x5F⟩ s

/-- cmd11, 0x550B60 (rule R88). -/
def execCmd11 (s : State) : Result := receiveFrame ⟨0x55, 0x0B, 0x60⟩ s

/-- cmd12, 0x550C61 (rule R88). -/
def execCmd12 (s : State) : Result := receiveFrame ⟨0x55, 0x0C, 0x61⟩ s

/-- cmd13, 0x550D62 (rule R88). -/
def execCmd13 (s : State) : Result := receiveFrame ⟨0x55, 0x0D, 0x62⟩ s

/-- cmd14, 0x550E63 (rule R88). -/
def execCmd14 (s : State) : Result := receiveFrame ⟨0x55, 0x0E, 0x63⟩ s

end Sys2Proof.Machine
end

