-- ==== Sys2Proof/Machine/Receiver.lean ====
section
/-! DEFINITION. The meanings of RX_EDGE, RX_ENABLE and RX_DISABLE (42_receiver.md). -/

namespace Sys2Proof.Machine

/-- RX_EDGE(t, d) (rule R151). Disabled, the edge is ignored and no register changes. BufferOverrun is the result
`Dropped`, which stops nothing (60_exceptions.md rule R193). -/
def execRxEdge (t : Nat) (d : Bit) (s : State) : Result :=
  if s.rx.rxEnabled then
    answer (.edge (sampleResult s.cfg.accCapacity t d s.rx)) (s.withRx (sampleEdge s.cfg.accCapacity t d s.rx))
  else answer (.edge .ignored) s

/-- RX_ENABLE (rule R162): a clock line already high makes no edge. -/
def execRxEnable (s : State) : Result :=
  answer .nothing (s.withRx { s.rx.enable with cinPrev := levelClockIn s })

/-- RX_DISABLE (rule R163). -/
def execRxDisable (s : State) : Result := answer .nothing (s.withRx s.rx.disable)

end Sys2Proof.Machine
end

