-- ==== Sys2Proof/Machine/Reset.lean ====
section
/-! DEFINITION. The meaning of RESET (70_reset_and_hazards.md rule R220). -/

namespace Sys2Proof.Machine

/-- RESET: every register at its reset value. With BAUD = 0 there is no such configuration (rule R220, D13, log 11). -/
def execReset (s : State) : Result := if s.cfg.baud = 0 then .refused .baudZero else .next (resetRegisters s)

end Sys2Proof.Machine
end

