-- ==== Sys2Proof/Machine/Transmitter.lean ====
section
/-! DEFINITION. The meanings of TIMING, SEND and TX_FRAME (41_transmitter.md). The waveform that follows a started
frame is TX_STEP, in Ops.lean; Step.lean takes it at the deadline. -/

namespace Sys2Proof.Machine

/-- TIMING(b) (rule R120): returns the profile. The three registers were written from BAUD at reset and are never
written again (10_state.md rule R22); mark: DEDUCED, log 13. TIMING(0) has no result and is refused (D13, log 11). -/
def execTiming (b : Nat) (s : State) : Result :=
  if b = 0 then .refused .baudZero else answer (.timing (timingOf b)) s

/-- SEND(c) (rule R123): the table first, so an unknown command is reported even while a frame is in flight (D20). -/
def execSend (c : Nat) (s : State) : Result :=
  match encodeCommand s.cfg c with
  | .unknownCommandError id => raise (.send (.unknownCommandError id)) s
  | .ok F => requestFrame F.word s

/-- TX_FRAME(W) (rule R124): any word, unchecked (D18). -/
def execTxFrame (W : Word24) (s : State) : Result := requestFrame W s

end Sys2Proof.Machine
end

