-- ==== Sys2Proof/Machine/Dispatch.lean ====
section
/-! DEFINITION. The dispatch: one arm per constructor of Instr. -/

namespace Sys2Proof.Machine

def exec (i : Instr) (s : State) : Host.Outcome State Fault Refusal :=
  match i with
  | .frame payload cks => Sys2Proof.Machine.execFrame payload cks s
  | .off => Sys2Proof.Machine.execOff s
  | .on => Sys2Proof.Machine.execOn s
  | .level2 => Sys2Proof.Machine.execLevel2 s
  | .level3 => Sys2Proof.Machine.execLevel3 s
  | .level4 => Sys2Proof.Machine.execLevel4 s
  | .level5 => Sys2Proof.Machine.execLevel5 s
  | .level6 => Sys2Proof.Machine.execLevel6 s
  | .cmd7 => Sys2Proof.Machine.execCmd7 s
  | .cmd8 => Sys2Proof.Machine.execCmd8 s
  | .cmd9 => Sys2Proof.Machine.execCmd9 s
  | .cmd10 => Sys2Proof.Machine.execCmd10 s
  | .cmd11 => Sys2Proof.Machine.execCmd11 s
  | .cmd12 => Sys2Proof.Machine.execCmd12 s
  | .cmd13 => Sys2Proof.Machine.execCmd13 s
  | .cmd14 => Sys2Proof.Machine.execCmd14 s
  | .checksum a b => Sys2Proof.Machine.execChecksum a b s
  | .encode c => Sys2Proof.Machine.execEncode c s
  | .toBits F => Sys2Proof.Machine.execToBits F s
  | .fromBits bs => Sys2Proof.Machine.execFromBits bs s
  | .timing b => Sys2Proof.Machine.execTiming b s
  | .send c => Sys2Proof.Machine.execSend c s
  | .txFrame W => Sys2Proof.Machine.execTxFrame W s
  | .rxEdge t d => Sys2Proof.Machine.execRxEdge t d s
  | .rxEnable => Sys2Proof.Machine.execRxEnable s
  | .rxDisable => Sys2Proof.Machine.execRxDisable s
  | .asmPoll => Sys2Proof.Machine.execAsmPoll s
  | .reset => Sys2Proof.Machine.execReset s

end Sys2Proof.Machine
end

