-- ==== Sys2Proof/Machine/Schedule.lean ====
section
/-! DEFINITION. What happens next: the operation an event asks for, the capture as an instruction word, the order of
the agents at one instant (60_exceptions.md rule R198, 20_memory.md rule R71), and how time passes (10_state.md rule
R37). Log 2. -/

namespace Sys2Proof.Machine

/-- The events still to come become `rest`. -/
def State.withScript (s : State) (rest : List Timed) : State := s.withEnv { s.env with script := rest }

/-- The three bytes the capture holds: slots 0 to 23 as preamble, payload, checksum (20_memory.md rule R63). -/
def capturedBytes (acc : List Bit) : Option (List Byte) :=
  (accRead acc 0 24).map fun bs => Frame.bytes (assembleFrame bs)

/-- The frame word an ASM_POLL is about to consume, decoded; none if the capture is incomplete or is no word of the
table (30_encoding.md rule R89). -/
def capturedInstr (s : State) : Option Instr :=
  if s.cfg.frameThreshold ≤ s.rx.bitCount then
    match capturedBytes s.rx.acc with
    | some bytes =>
      match decode bytes with
      | .ok (i, _) => some i
      | .error _ => none
    | none => none
  else none

/-- The instruction an event has performed. An ASM_POLL that finds a complete capture holding a frame word runs that
word; any other runs ASM_POLL itself, which has the same effect (log 3). A change of the lines is no instruction. -/
def eventInstr (s : State) : Event → Option Instr
  | .lines _ _ => none
  | .checksum a b => some (.checksum a b)
  | .encode c => some (.encode c)
  | .toBits F => some (.toBits F)
  | .fromBits bs => some (.fromBits bs)
  | .timing b => some (.timing b)
  | .send c => some (.send c)
  | .txFrame W => some (.txFrame W)
  | .rxEdge t d => some (.rxEdge t d)
  | .rxEnable => some .rxEnable
  | .rxDisable => some .rxDisable
  | .asmPoll => some ((capturedInstr s).getD .asmPoll)
  | .reset => some .reset

/-- RESET overrides everything else at its instant (rule R198). If a RESET is due among the events due now: the due
events before it, which it overrides, and the events after it. Log 16. -/
def resetDue (now : Nat) : List Timed → Option (List Event × List Timed)
  | [] => none
  | e :: rest =>
    if e.time ≤ now then
      if e.event = .reset then some ([], rest)
      else (resetDue now rest).map fun r => (e.event :: r.1, r.2)
    else none

/-- The next event, if its instant has come, and the events after it. -/
def eventDue (now : Nat) : List Timed → Option (Event × List Timed)
  | [] => none
  | e :: rest => if e.time ≤ now then some (e.event, rest) else none

/-- The environment sets the levels of the two input lines (rule R37). In loopback the lines are wired to the block's
own outputs and the environment's levels go nowhere (D29, log 10). -/
def setLines (c d : Bit) (s : State) : State :=
  match s.cfg.wiring with
  | .separate =>
    s.withEnv { s.env with clockIn := c, dataIn := d,
                           dataMoved := if s.env.dataIn = d then s.env.dataMoved else some s.env.now }
  | .loopback => s

/-- What an event does to the lines; an operation does nothing to them. -/
def applyLines (s : State) : Event → State
  | .lines c d => setLines c d s
  | .checksum _ _ | .encode _ | .toBits _ | .fromBits _ | .timing _ | .send _ | .txFrame _ | .rxEdge _ _ | .rxEnable
  | .rxDisable | .asmPoll | .reset => s

/-- The instant of the next event, if it lies ahead. -/
def nextEventTime (s : State) : Option Nat :=
  match s.env.script with
  | [] => none
  | e :: _ => if s.env.now < e.time then some e.time else none

/-- The end of the present phase of a frame in flight, if it lies ahead. -/
def nextPhaseEnd (s : State) : Option Nat :=
  if s.tx.phase ≠ .idle ∧ s.env.now < s.tx.deadline then some s.tx.deadline else none

/-- The instant after `now` at which something is next due: the next event, the end of the transmitter's phase, or
the earlier of the two; with neither, one microsecond passes. Nothing changes in between (42_receiver.md rule R158,
log 20). -/
def nextInstant (s : State) : Nat :=
  match nextEventTime s, nextPhaseEnd s with
  | some a, some b => min a b
  | some a, none => a
  | none, some b => b
  | none, none => s.env.now + 1

/-- Time passes to the next instant, a later clock, so every pulse output is 0 (60_exceptions.md rule R207). -/
def passTime (s : State) : State := (s.withEnv { s.env with now := nextInstant s }).withPulses .low

/-- Write the 24 bits of a word into slots 0 to 23, as an aligned capture of it would (20_memory.md rule R63). -/
def placeCapture (W : Word24) (acc : List Bit) : List Bit := wireBits W ++ acc.drop 24

/-- `s` with nothing due before the environment's next event: no edge, no TX_STEP, no RESET. A TX_STEP due now is put
off by one microsecond. -/
def State.clearInstant (s : State) : State :=
  let t := s.withRx { s.rx with cinPrev := levelClockIn s }
  let u := if txDue t then t.withTx { t.tx with deadline := t.tx.deadline + 1 } else t
  u.withScript (u.env.script.filter fun e => !(e.event == .reset && decide (e.time ≤ u.env.now)))

/-- `s` with an event as the very next thing that happens. -/
def State.withNextEvent (s : State) (e : Event) : State :=
  let t := s.clearInstant
  t.withScript (⟨t.env.now, e⟩ :: t.env.script)

end Sys2Proof.Machine
end

