-- ==== Sys2Proof/Machine/Step.lean ====
section
/-! DEFINITION. One step of the machine, and the placing of a word or of an operation where the next step runs it. -/

namespace Sys2Proof.Machine

/-- One atomic step (20_memory.md rules R66, R70). At one instant, in this order: a RESET that is due; the edge
detector, if clock_in has moved; the transmitter's TX_STEP, if its phase ends now; the next event of the environment;
when nothing is due, time passes (60_exceptions.md rule R198, 20_memory.md rule R71; log 2, log 21). The levels of the
input lines are the environment's, so a RESET overrides no change of them (log 16). -/
def step (s : State) : Host.Outcome State Fault Refusal :=
  match resetDue s.env.now s.env.script with
  | some (overridden, rest) => exec .reset ((overridden.foldl applyLines s).withScript rest)
  | none =>
    if edgeDue s then
      match detectEdge s with
      | (t, some d) => exec (.rxEdge t.env.now d) t
      | (t, none) => .next t
    else if txDue s then .next (txStep s)
    else
      match eventDue s.env.now s.env.script with
      | some (e, rest) =>
        match eventInstr s e with
        | some i => exec i (s.withScript rest)
        | none => .next (applyLines (s.withScript rest) e)
      | none => .next (passTime s)

/-- `s` with the word `w` captured, complete, and about to be consumed: the bits in slots 0 to 23, the count at the
threshold, and an ASM_POLL as the next event, so that the next step runs the word (log 4). The number of bits plays no
part: the word's bits above `nbits` are 0. -/
def State.withFetchWord (s : State) (_nbits w : Nat) : State :=
  let t := s.withNextEvent .asmPoll
  t.withRx { t.rx with acc := placeCapture (BitVec.ofNat 24 w) t.rx.acc, bitCount := t.cfg.frameThreshold }

end Sys2Proof.Machine
end

