-- ==== Sys2Proof/Machine/Ports.lean ====
section
/-! DEFINITION. The port list of 60_exceptions.md rule R207: the output ports of a state, and the events the input
ports stand for, clock by clock (`clk`: one clock is one microsecond of `now`). Log 18, log 24. -/

namespace Sys2Proof.Machine

/-- The input ports on one clock. -/
structure InPorts where
  rst         : Bit
  clockIn     : Bit
  dataIn      : Bit
  txStart     : Bit
  txCmd       : BitVec 4
  rxEnableSet : Bit
  rxEnableClr : Bit
  poll        : Bit
deriving DecidableEq, Repr

/-- The output ports. -/
structure OutPorts where
  clockOut  : Bit
  dataOut   : Bit
  statusLed : Bit
  txBusy    : Bit
  txUnknown : Bit
  rxOk      : Bit
  rxBad     : Bit
  rxPayload : Byte
  rxStatus  : BitVec 2
deriving DecidableEq, Repr

/-- An event, if its strobe is 1. -/
def onStrobe (t : Nat) (strobe : Bit) (e : Event) : List Timed := if strobe then [⟨t, e⟩] else []

/-- What the input ports ask for on the clock of time `t`: the lines, then RESET alone while `rst` is 1, else the
strobes in the order of the port list. The spec gives no order among strobes of one clock: DESIGN CHOICE, log 18. -/
def InPorts.events (t : Nat) (p : InPorts) : List Timed :=
  if p.rst then [⟨t, .lines p.clockIn p.dataIn⟩, ⟨t, .reset⟩]
  else
    ⟨t, .lines p.clockIn p.dataIn⟩ :: (onStrobe t p.txStart (.send p.txCmd.toNat) ++
      onStrobe t p.rxEnableSet .rxEnable ++ onStrobe t p.rxEnableClr .rxDisable ++ onStrobe t p.poll .asmPoll)

/-- What a sequence of clocks asks for, the first at time `t`. A clock with `rst` at 1 makes the next one time 0 (rule
R220). -/
def InPorts.trace (t : Nat) : List InPorts → List Timed
  | [] => []
  | p :: rest => p.events t ++ InPorts.trace (if p.rst then 0 else t + 1) rest

/-- The output ports of a state. A state shows the ports of the clock `now`: while the operations of a clock are
performed the pulses they raise stay up, and they are down once time has passed. -/
def outPorts (s : State) : OutPorts :=
  { clockOut := s.tx.clockOut, dataOut := s.tx.dataOut, statusLed := s.rx.statusLed, txBusy := s.tx.busy,
    txUnknown := s.pulses.txUnknown, rxOk := s.pulses.rxOk, rxBad := s.pulses.rxBad,
    rxPayload := s.latch.payload, rxStatus := s.latch.status.code }

end Sys2Proof.Machine
end

