-- ==== Sys2Proof/Safety.lean ====
section
/-! DEFINITION. What counts as a good state and a safe run: the invariant of 10_state.md rule R41 with the forms the
step relies on, the environment's promises (rule R37, 30_encoding.md rule R91), and running a list of instructions. -/

namespace Sys2Proof.Machine

/-! ## The invariant -/

/-- tx_busy is 0 exactly when tx_phase is IDLE (rule R24, rule R41). -/
abbrev BusyMatchesPhase (t : TxState) : Prop := t.busy = false ↔ t.phase = .idle

/-- The lines in each phase, by the table of rule R26; between frames both lines are at one level, 0 before the first
frame and 1 in the rest state (rule R25). -/
def linesMatch (t : TxState) : Bool :=
  match t.phase with
  | .idle => t.clockOut == t.dataOut
  | .porch => !t.clockOut && !t.dataOut
  | .setup => !t.clockOut && t.dataOut == currentBit t
  | .high => t.clockOut && t.dataOut == currentBit t
  | .fall => !t.clockOut && t.dataOut == currentBit t
  | .low => !t.clockOut && !t.dataOut

/-- Time never passes the end of the phase of a frame in flight (rule R127). -/
abbrev DeadlineAhead (s : State) : Prop := s.tx.phase ≠ .idle → s.env.now ≤ s.tx.deadline

/-- The last change of data_in lies in the past or at this instant. -/
abbrev DataMovedPast (e : Env) : Prop := ∀ m ∈ e.dataMoved, m ≤ e.now

/-- An event asks for a well-formed instruction, or for none. -/
def Event.wellFormed : Event → Bool
  | .fromBits bs => decide (24 ≤ bs.length)
  | .timing b => b != 0
  | .lines _ _ | .checksum _ _ | .encode _ | .toBits _ | .send _ | .txFrame _ | .rxEdge _ _ | .rxEnable
  | .rxDisable | .asmPoll | .reset => true

/-- Every event to come is well formed. -/
abbrev ScriptWellFormed (script : List Timed) : Prop := ∀ e ∈ script, e.event.wellFormed = true

/-- The invariant: the parameters are admitted (rules R8 to R11), the profile is TIMING(BAUD) (rule R22), the
accumulator has its form (rule R31), the transmitter is as rule R41 says, time has not passed a deadline,
data_in last moved at or before now, and the events to come are well formed. -/
abbrev State.Inv (s : State) : Prop :=
  s.cfg.wf ∧ s.timing = timingOf s.cfg.baud ∧ Memory.wf s.cfg.accCapacity s.rx.acc ∧ BusyMatchesPhase s.tx ∧
    s.tx.bit ≤ 23 ∧ linesMatch s.tx = true ∧ DeadlineAhead s ∧ DataMovedPast s.env ∧
    ScriptWellFormed s.env.script

/-! ## The environment's promises -/

/-- The place of an event among those of one instant (30_encoding.md rule R91, 20_memory.md rule R71): the lines, then
edges, then host operations, RESET last because it overrides the others (60_exceptions.md rule R198). -/
def Event.rank : Event → Nat
  | .lines _ _ => 0
  | .rxEdge _ _ => 1
  | .checksum _ _ | .encode _ | .toBits _ | .fromBits _ | .timing _ | .send _ | .txFrame _ | .rxEnable | .rxDisable
  | .asmPoll => 2
  | .reset => 3

/-- One event may follow another in a trace: after a RESET time starts again (rule R220); otherwise times do not
decrease, and at one instant the ranks do not, with at most one change of the lines (rule R37: one level at every
instant). -/
def mayFollow (a b : Timed) : Bool :=
  a.event == .reset ||
    (decide (a.time < b.time) ||
      (a.time == b.time && (decide (a.event.rank < b.event.rank) || (a.event.rank == b.event.rank && a.event.rank != 0))))

/-- A trace as the environment promises it. Log 22. -/
def Script.ordered : List Timed → Bool
  | [] => true
  | [_] => true
  | a :: b :: rest => mayFollow a b && Script.ordered (b :: rest)

/-! ## Runs -/

/-- Execute instructions in turn, stopping at the first fault or refusal. -/
def execAll : List Instr → State → Host.Outcome State Fault Refusal
  | [], s => .next s
  | i :: rest, s =>
    match exec i s with
    | .next t => execAll rest t
    | .fault r => .fault r
    | .refused r => .refused r

/-- The RX_EDGE operations of a list of edges. -/
def edgeInstrs (edges : List (Nat × Bit)) : List Instr := edges.map fun e => .rxEdge e.1 e.2

/-- No gap among the edges, the first counted from `last`, is longer than the silence threshold: "valid timing"
(95_test_vectors.md V5). -/
def noSilence : Nat → List Nat → Bool
  | _, [] => true
  | last, t :: rest => decide (t ≤ last + silenceThresholdUs) && noSilence t rest

/-- No gap between neighbours is longer than the silence threshold; the gap before the first edge may be any. -/
def gapless : List Nat → Bool
  | [] => true
  | t :: rest => noSilence t rest

/-- The first of these edges is sampled into slot 0: the count is 0, or a silence precedes the edge (42_receiver.md
rules R151, R152). -/
def startsCapture (r : RxState) : List Nat → Bool
  | [] => r.bitCount == 0
  | t :: _ => r.bitCount == 0 || decide (r.lastEdgeTime + silenceThresholdUs < t)

/-- Take `n` steps of the machine, stopping at the first fault or refusal. -/
def stepN : Nat → State → Host.Outcome State Fault Refusal
  | 0, s => .next s
  | n + 1, s =>
    match step s with
    | .next t => stepN n t
    | .fault r => .fault r
    | .refused r => .refused r

/-- Nothing but the environment's next event, or the passing of time, is due. -/
abbrev OnlyEventsDue (s : State) : Prop :=
  resetDue s.env.now s.env.script = none ∧ edgeDue s = false ∧ txDue s = false

end Sys2Proof.Machine
end

