-- ==== Sys2Proof/Certificates/Slice0/Obligations.lean ====
section
/-! DEFINITION. The statements for the provers. Each docstring names the rule of spec/ it comes from. -/

open Sys2Proof Sys2Proof.Machine

/-- Words written out from the table decode to the rows they stand for. Derived from R80, R88, R93. Rests on choices of
the model: log 5, log 19. Rests on the spec's own decision D14. -/
def Obligations.TableWordsDecodeAsPrinted : Prop :=
  decodeTableWord 24 0x550055 = some .off ∧ decodeTableWord 24 0x550156 = some .on ∧
    decodeTableWord 24 0x55055A = some .level5 ∧ decodeTableWord 24 0x550E63 = some .cmd14 ∧
    decodeTableWord 24 0x55AB00 = some (.frame 0xAB 0x00) ∧ decodeTableWord 24 0x550157 = some (.frame 0x01 0x57) ∧
    decodeTableWord 24 0x540256 = none ∧ decodeTableWord 0 0 = none

/-- Decoding an encoded frame word gives the instruction back; exactly the frame words have an encoding. Derived from
R80, R81, R88, R93. Rests on choices of the model: log 5. -/
def Obligations.DecodeInvertsEncode : Prop :=
  (∀ (i : Instr) (bytes rest : List Byte), i.WellFormed → encode i = some bytes →
      decode (bytes ++ rest) = .ok (i, rest)) ∧
    (∀ i : Instr, i.isFrameWord = true → ∃ bytes, encode i = some bytes ∧ bytes.length = 3) ∧
    (∀ i : Instr, i.isFrameWord = false → encode i = none)

/-- A word is one of the table's exactly when its first byte is 0x55. Derived from R80, R93. -/
def Obligations.ExactlyTransmitPreamblesDecode : Prop :=
  ∀ W : Word24, (∃ i, decodeWord W = .ok i) ↔ W.extractLsb' 16 8 = 0x55

/-- A step runs the instruction of the event whose instant has come. Derived from R66, R70, R90, R91. Rests on choices
of the model: log 2. -/
def Obligations.StepRunsTheNextEvent : Prop :=
  ∀ (s : State) (e : Timed) (rest : List Timed) (i : Instr), OnlyEventsDue s → s.env.script = e :: rest →
    e.time ≤ s.env.now → eventInstr s e.event = some i →
    step s = exec i { s with env := { s.env with script := rest } }

/-- An ASM_POLL step with a complete capture runs the frame word the capture's bytes decode to. Derived from R63, R83,
R89, R171. Rests on choices of the model: log 3. -/
def Obligations.PollStepRunsTheCapturedWord : Prop :=
  ∀ (s : State) (t : Nat) (rest : List Timed) (i : Instr) (bytes tail : List Byte), OnlyEventsDue s →
    s.env.script = ⟨t, .asmPoll⟩ :: rest → t ≤ s.env.now → s.cfg.frameThreshold ≤ s.rx.bitCount →
    capturedBytes s.rx.acc = some bytes → decode bytes = .ok (i, tail) →
    step s = exec i { s with env := { s.env with script := rest } }

/-- Executing the captured frame word is the same as ASM_POLL. Derived from R89, R171, R105. Rests on choices of the
model: log 3. -/
def Obligations.CapturedWordActsAsPoll : Prop :=
  ∀ (s : State) (i : Instr), capturedInstr s = some i → exec i s = exec .asmPoll s

/-- A word placed by withFetchWord is what the next step runs. Derived from R63, R89, R171. Rests on choices of the
model: log 4. -/
def Obligations.PlacedWordRunsNext : Prop :=
  ∀ (s : State) (w : Nat) (i : Instr), decodeTableWord 24 w = some i →
    step (s.withFetchWord 24 w) =
      exec i ((s.withFetchWord 24 w).withScript (s.withFetchWord 24 w).env.script.tail)

/-- A rising edge while enabled is one RX_EDGE with the present time and the level of data_in. Derived from R34, R161,
R196, R199. -/
def Obligations.RisingEdgeStepSamplesTheLine : Prop :=
  ∀ s : State, resetDue s.env.now s.env.script = none → s.rx.rxEnabled = true → s.rx.cinPrev = false →
    levelClockIn s = true → s.env.dataMoved ≠ some s.env.now → zeroWidthPulse s = false →
    step s = exec (.rxEdge s.env.now (levelDataIn s)) { s with rx := { s.rx with cinPrev := true } }

/-- A rising edge while data_in changes samples some level, and nothing else differs. Derived from R34, R161,
93_implementation_defined.md U3, R131. Rests on choices of the model: log 8. -/
def Obligations.UndeterminedSampleIsSomeLevel : Prop :=
  ∀ s : State, resetDue s.env.now s.env.script = none → s.rx.rxEnabled = true → s.rx.cinPrev = false →
    levelClockIn s = true → s.env.dataMoved = some s.env.now → zeroWidthPulse s = false →
    ∃ d : Bit, step s = exec (.rxEdge s.env.now d)
      { s with rx := { s.rx with cinPrev := true }, env := { s.env with draws := s.env.draws + 1 } }

/-- A falling clock, or any clock move while disabled, changes cin_prev alone. Derived from R34, R132, R196, R197. -/
def Obligations.OtherClockMovesOnlyUpdateTheDetector : Prop :=
  ∀ s : State, resetDue s.env.now s.env.script = none → s.rx.cinPrev ≠ levelClockIn s →
    (levelClockIn s = false ∨ s.rx.rxEnabled = false) →
    step s = .next { s with rx := { s.rx with cinPrev := levelClockIn s } }

/-- A TX_STEP is taken when the phase of a frame in flight ends, before any event. Derived from R127, R198. -/
def Obligations.TxStepIsTakenAtTheDeadline : Prop :=
  ∀ s : State, resetDue s.env.now s.env.script = none → edgeDue s = false → s.tx.phase ≠ .idle →
    s.env.now = s.tx.deadline → step s = .next (txStep s)

/-- A RESET that is due overrides everything else due at its instant. Derived from R198, R220, R40. Rests on choices of
the model: log 16, log 24. Rests on the spec's own decision D9. -/
def Obligations.ResetOverridesItsInstant : Prop :=
  ∀ (s : State) (pre rest : List Timed) (t : Nat), 1 ≤ s.cfg.baud → s.env.script = pre ++ ⟨t, .reset⟩ :: rest →
    (∀ e ∈ pre, e.time ≤ s.env.now ∧ e.event ≠ .reset) → t ≤ s.env.now →
    ∃ u, step s = .next u ∧ u.cfg = s.cfg ∧ u.timing = timingOf s.cfg.baud ∧
      u.tx = ⟨0, false, .idle, 0, 0, false, false⟩ ∧
      u.rx = ⟨0, 0, List.replicate s.cfg.accCapacity false, false, false, false⟩ ∧ u.latch = ⟨0, .none⟩ ∧
      u.pulses = ⟨false, false, false⟩ ∧ u.env.now = 0 ∧ u.env.script = rest

/-- Time never runs back, and when it passes nothing else changes and nothing was due. Derived from R15, R37, R127,
R158, R207. Rests on choices of the model: log 20, log 24. -/
def Obligations.TimePassesOnlyWhenNothingIsDue : Prop :=
  ∀ s t : State, resetDue s.env.now s.env.script = none → step s = .next t →
    s.env.now ≤ t.env.now ∧
    (s.env.now < t.env.now → edgeDue s = false ∧ txDue s = false ∧ eventDue s.env.now s.env.script = none ∧
      t = { s with env := { s.env with now := t.env.now }, pulses := ⟨false, false, false⟩ })

/-- A change of the input lines sets their levels and touches no register of the block. Derived from R37, R161. Rests on
choices of the model: log 2, log 8. -/
def Obligations.LineEventSetsTheLevels : Prop :=
  ∀ (s : State) (t : Nat) (rest : List Timed) (c d : Bit), OnlyEventsDue s → s.cfg.wiring = .separate →
    s.env.script = ⟨t, .lines c d⟩ :: rest → t ≤ s.env.now →
    step s = .next { s with env := { s.env with script := rest, clockIn := c, dataIn := d,
                                                dataMoved := if s.env.dataIn = d then s.env.dataMoved
                                                             else some s.env.now } }

/-- CHECKSUM returns the low byte of the sum and writes no register. Derived from R100, R109. -/
def Obligations.ChecksumReturnsTheLowByte : Prop :=
  ∀ (s : State) (a b : Byte), ∃ k : Byte, k.toNat = (a.toNat + b.toNat) % 256 ∧
    exec (.checksum a b) s = .next { s with result := .byte k }

/-- ENCODE of a command in the table returns preamble 0x55, its payload, and their checksum. Derived from R82, R102. -/
def Obligations.EncodeReturnsTheTableFrame : Prop :=
  ∀ (s : State) (c : Nat) (p : Byte), s.cfg.cmdTable[c]? = some p →
    ∃ k : Byte, k.toNat = (0x55 + p.toNat) % 256 ∧
      exec (.encode c) s = .next { s with result := .encode (.ok ⟨0x55, p, k⟩) }

/-- An identifier outside the table is reported by ENCODE and SEND, and no state changes; no other transmit error
exists. Derived from R191, R102, R123, R207. Rests on choices of the model: log 6, log 24. -/
def Obligations.UnknownCommandIsReportedAndChangesNothing : Prop :=
  (∀ (s : State) (c : Nat), s.cfg.cmdTable.length ≤ c →
      exec (.encode c) s = .next { s with result := .encode (.unknownCommandError c) } ∧
      exec (.send c) s =
        .next { s with pulses := { s.pulses with txUnknown := true }, result := .send (.unknownCommandError c) }) ∧
    (∀ (s t : State) (i : Instr) (e : LinkError), exec i s = .next t → t.result.error? = some e →
      (∀ W, i ≠ .txFrame W) ∧ (∀ c, i = .send c ∨ i = .encode c → e = .unknownCommandError c))

/-- TO_BITS returns exactly 24 bits, bit k being W[23-k], for any frame. States R104. -/
def Obligations.ToBitsSerialisesMsbFirst : Prop :=
  ∀ (s : State) (F : Frame), ∃ bs : List Bit, exec (.toBits F) s = .next { s with result := .bits bs } ∧
    bs.length = 24 ∧
    (∀ k < 8, bs[k]? = some (F.preamble.getLsbD (7 - k)) ∧ bs[8 + k]? = some (F.payload.getLsbD (7 - k)) ∧
      bs[16 + k]? = some (F.checksum.getLsbD (7 - k))) ∧
    (∀ k < 24, bs[k]? = some ((F.preamble ++ F.payload ++ F.checksum : BitVec 24).getLsbD (23 - k)))

/-- FROM_BITS assembles three bytes from the first 24 bits and accepts exactly when the checksum invariant holds.
Derived from R83, R101, R105. -/
def Obligations.FromBitsAssemblesAndChecks : Prop :=
  ∀ (s : State) (bs : List Bit), 24 ≤ bs.length → ∃ pre p c : Byte,
    pre.toNat = ∑ k ∈ Finset.range 8, (bs.getD k false).toNat * 2 ^ (7 - k) ∧
    p.toNat = ∑ k ∈ Finset.range 8, (bs.getD (8 + k) false).toNat * 2 ^ (7 - k) ∧
    c.toNat = ∑ k ∈ Finset.range 8, (bs.getD (16 + k) false).toNat * 2 ^ (7 - k) ∧
    exec (.fromBits bs) s =
      if c.toNat = (pre.toNat + p.toNat) % 256 then .next { s with result := .decode (.ok ⟨pre, p, c⟩) }
      else .next { s with result := .decode .checksumMismatch }

/-- FROM_BITS below 24 bits, TIMING(0) and RESET with BAUD 0 are refused by name. Derived from R105, R120, R220,
93_implementation_defined.md U7, 93_implementation_defined.md U8. Rests on choices of the model: log 11. -/
def Obligations.ShortSequencesAndBaudZeroAreRefused : Prop :=
  (∀ (s : State) (bs : List Bit), bs.length < 24 → exec (.fromBits bs) s = .refused .fromBitsTooShort) ∧
    (∀ s : State, exec (.timing 0) s = .refused .baudZero) ∧
    (∀ s : State, s.cfg.baud = 0 → exec .reset s = .refused .baudZero)

/-- FROM_BITS inverts TO_BITS on valid frames, and TO_BITS inverts FROM_BITS on accepted sequences. Derived from R107,
R104, R105. -/
def Obligations.CodecRoundTrip : Prop :=
  (∀ (s t : State) (F : Frame) (bs : List Bit), F.checksum.toNat = (F.preamble.toNat + F.payload.toNat) % 256 →
      exec (.toBits F) s = .next t → t.result = .bits bs →
      exec (.fromBits bs) s = .next { s with result := .decode (.ok F) }) ∧
    (∀ (s t : State) (F : Frame) (bs : List Bit), bs.length = 24 → exec (.fromBits bs) s = .next t →
      t.result = .decode (.ok F) → exec (.toBits F) s = .next { s with result := .bits bs })

/-- Inverting any one bit of an accepted 24-bit sequence makes FROM_BITS answer ChecksumMismatch. Derived from R105,
R108. -/
def Obligations.EverySingleBitErrorIsDetected : Prop :=
  ∀ (s : State) (bs : List Bit) (F : Frame) (k : Nat) (b : Bit), bs.length = 24 → bs[k]? = some b →
    exec (.fromBits bs) s = .next { s with result := .decode (.ok F) } →
    exec (.fromBits (bs.set k (!b))) s = .next { s with result := .decode .checksumMismatch }

/-- Exactly 65536 of the 24-bit words satisfy the checksum invariant. Derived from R86, R108. -/
def Obligations.AcceptedWordsAreCounted : Prop :=
  ((Finset.range (2 ^ 24)).filter fun w =>
      bitsToFrame (wireBits (BitVec.ofNat 24 w)) ≠ .checksumMismatch).card = 65536

/-- A command frame captured one place late: a stray 1 and an even payload are accepted, every other case fails. Derived
from R65, 90_conflicts.md C15. -/
def Obligations.CaptureOneLateIsJudgedByChecksumAlone : Prop :=
  (∀ p : Byte, p.toNat ≤ 14 → p.toNat % 2 = 0 →
      bitsToFrame (true :: (frameToBits ⟨0x55, p, 0x55 + p⟩).take 23) = .ok ⟨0xAA, 0x80 + p / 2, 0x2A + p / 2⟩) ∧
    (∀ p : Byte, p.toNat ≤ 14 →
      bitsToFrame (false :: (frameToBits ⟨0x55, p, 0x55 + p⟩).take 23) = .checksumMismatch ∧
      (p.toNat % 2 = 1 → bitsToFrame (true :: (frameToBits ⟨0x55, p, 0x55 + p⟩).take 23) = .checksumMismatch))

/-- TIMING returns the three truncated durations and writes no register. Derived from R120, R22. Rests on choices of the
model: log 13. Rests on the spec's own decision D12. -/
def Obligations.TimingReturnsTheProfile : Prop :=
  ∀ (s : State) (b : Nat), 1 ≤ b →
    exec (.timing b) s = .next { s with result := .timing ⟨1000000 / b, 1000000 / b / 2, 6 * (1000000 / b)⟩ }

/-- The usable-baud bounds: 11, 60, 5000 and 500000. Derived from R228, R232, R233, R121. -/
def Obligations.UsableBaudBounds : Prop :=
  ∀ b : Nat, 1 ≤ b →
    (200 + 2 * (timingOf b).halfCycle ≤ 100000 ↔ 11 ≤ b) ∧ ((timingOf b).frontPorch + 100 > 100000 ↔ b ≤ 60) ∧
    (100 ≤ (timingOf b).halfCycle ↔ b ≤ 5000) ∧ (1 ≤ (timingOf b).halfCycle ↔ b ≤ 500000)

/-- TX_FRAME on a free transmitter latches any word, forces both lines low and enters PORCH. Derived from R124, R132.
Rests on choices of the model: log 8, log 10. -/
def Obligations.TxFrameStartsWhenFree : Prop :=
  ∀ (s : State) (W : Word24), s.tx.busy = false →
    exec (.txFrame W) s =
      .next { s with
        tx := {
          frame := W, busy := true, phase := .porch, bit := 0, deadline := s.env.now + s.timing.frontPorch
          clockOut := false, dataOut := false }
        env := carryData false s
        result := .send .started }

/-- SEND of a known command on a free transmitter starts its frame word. Derived from R123, R124, R82. Rests on choices
of the model: log 8, log 10. -/
def Obligations.SendStartsTheTableFrame : Prop :=
  ∀ (s : State) (c : Nat) (p : Byte), s.tx.busy = false → s.cfg.cmdTable[c]? = some p →
    ∃ (k : Byte) (W : Word24), k.toNat = (0x55 + p.toNat) % 256 ∧ W = 0x55#8 ++ p ++ k ∧ exec (.send c) s =
      .next { s with
        tx := {
          frame := W, busy := true, phase := .porch, bit := 0, deadline := s.env.now + s.timing.frontPorch
          clockOut := false, dataOut := false }
        env := carryData false s
        result := .send .started }

/-- A request while a frame is in flight returns Busy and changes nothing. Derived from R123, R124, R225, R74. -/
def Obligations.RequestWhileBusyIsDropped : Prop :=
  ∀ s : State, s.tx.busy = true →
    (∀ W : Word24, exec (.txFrame W) s = .next { s with result := .send .busy }) ∧
    (∀ c < s.cfg.cmdTable.length, exec (.send c) s = .next { s with result := .send .busy })

/-- No instruction but RESET changes the transmitter while a frame is in flight. Derived from R74, R127, R220, R225. -/
def Obligations.OnlyResetDisturbsAFrameInFlight : Prop :=
  ∀ (s t : State) (i : Instr), s.tx.busy = true → i ≠ .reset → exec i s = .next t → t.tx = s.tx

/-- After TX_FRAME the transmitter's steps run through the schedule of rule R128, bit by bit, to the rest state. Derived
from R126, R127, R128, R131, R26. -/
def Obligations.WaveformFollowsTheSchedule : Prop :=
  ∀ (s u : State) (W : Word24), s.tx.busy = false → exec (.txFrame W) s = .next u →
    (∀ k < 24, ∀ (S : Nat) (H : Nat), S = s.env.now + s.timing.frontPorch + k * (200 + 2 * s.timing.halfCycle) →
      H = s.timing.halfCycle →
      (txStep^[4 * k + 1] u).tx = ⟨W, true, .setup, k, S + 100, false, W.getLsbD (23 - k)⟩ ∧
      (txStep^[4 * k + 2] u).tx = ⟨W, true, .high, k, S + 100 + H, true, W.getLsbD (23 - k)⟩ ∧
      (txStep^[4 * k + 3] u).tx = ⟨W, true, .fall, k, S + 200 + H, false, W.getLsbD (23 - k)⟩ ∧
      (txStep^[4 * k + 4] u).tx = ⟨W, true, .low, k, S + 200 + 2 * H, false, false⟩) ∧
    (txStep^[97] u).tx =
      ⟨W, false, .idle, 23, s.env.now + s.timing.frontPorch + 24 * (200 + 2 * s.timing.halfCycle), true, true⟩

/-- TX_STEP changes no register of the receiver, the assembler or the timing profile. Derived from R76, R39, R127. -/
def Obligations.TxStepTouchesOnlyTheTransmitter : Prop :=
  ∀ s : State, (txStep s).cfg = s.cfg ∧ (txStep s).timing = s.timing ∧ (txStep s).rx = s.rx ∧
    (txStep s).latch = s.latch ∧ (txStep s).result = s.result ∧ (txStep s).pulses = s.pulses ∧ (txStep s).tx.frame = s.tx.frame ∧
    ∃ m, (txStep s).env = { s.env with dataMoved := m }

/-- With nothing else to come and separate lines, a started frame reaches the rest state after F + 24P microseconds.
Derived from R122, R127, R128, R25. Rests on choices of the model: log 20. -/
def Obligations.UndisturbedFrameEndsInTheRestState : Prop :=
  ∀ (s u : State) (W : Word24), s.Inv → s.tx.busy = false → s.cfg.wiring = .separate → s.env.script = [] →
    s.rx.cinPrev = s.env.clockIn → exec (.txFrame W) s = .next u →
    ∃ n ≤ 194, ∃ v, stepN n u = .next v ∧ v.tx.busy = false ∧ v.tx.clockOut = true ∧ v.tx.dataOut = true ∧
      v.env.now = s.env.now + s.timing.frontPorch + 24 * (200 + 2 * s.timing.halfCycle) ∧
      v.rx = s.rx ∧ v.latch = s.latch

/-- In loopback the 24 samples of a transmitted word land in slots 0 to 23, whatever the word. Derived from R128, R129,
R131, R151, R232, R233. Rests on choices of the model: log 10. -/
def Obligations.LoopbackCapturesTheWord : Prop :=
  ∀ (s u : State) (W : Word24), s.Inv → s.tx.busy = false → s.cfg.wiring = .loopback → s.env.script = [] →
    s.rx.rxEnabled = true → s.rx.bitCount = 0 → s.rx.cinPrev = s.tx.clockOut →
    11 ≤ s.cfg.baud → s.cfg.baud ≤ 500000 → exec (.txFrame W) s = .next u →
    ∃ n v, stepN n u = .next v ∧ v.tx.busy = false ∧ v.rx.bitCount = 25 ∧
      v.env.now = s.env.now + s.timing.frontPorch + 24 * (200 + 2 * s.timing.halfCycle) ∧
      ∀ k < 24, v.rx.acc[k]? = some (W.getLsbD (23 - k))

/-- RX_EDGE while disabled returns Ignored and changes no register. Derived from R151, R163, R197. -/
def Obligations.DisabledEdgeIsIgnored : Prop :=
  ∀ (s : State) (t : Nat) (d : Bit), s.rx.rxEnabled = false →
    exec (.rxEdge t d) s = .next { s with result := .edge .ignored }

/-- RX_EDGE while enabled: resync, timestamp, store or drop, count, toggle. Derived from R151, R152, R154, R159. -/
def Obligations.EnabledEdgeIsSampled : Prop :=
  ∀ (s : State) (t : Nat) (d : Bit) (i : Nat), s.rx.rxEnabled = true →
    i = (if t > s.rx.lastEdgeTime + 100000 then 0 else s.rx.bitCount) →
    exec (.rxEdge t d) s =
      .next { s with
        rx := { s.rx with
          lastEdgeTime := t
          bitCount := i + 1
          acc := if i < s.cfg.accCapacity then s.rx.acc.set i d else s.rx.acc
          statusLed := !s.rx.statusLed }
        result := .edge (if i < s.cfg.accCapacity then .stored i d else .dropped i) }

/-- Every edge that is not ignored sets last_edge_time, resynchronising or not, stored or dropped. States R153. -/
def Obligations.TimestampIsAlwaysTaken : Prop :=
  ∀ (s : State) (t : Nat) (d : Bit), s.rx.rxEnabled = true →
    ∃ u, exec (.rxEdge t d) s = .next u ∧ u.rx.lastEdgeTime = t ∧
      ∀ (t' : Nat) (d' : Bit), ∃ v, exec (.rxEdge t' d') u = .next v ∧
        v.rx.bitCount = (if t' > t + 100000 then 0 else u.rx.bitCount) + 1

/-- The store test is bit_count < ACC_CAPACITY: 25 slots take the 25th sample, 24 do not; a dropped sample changes no
slot. States R154. -/
def Obligations.SampleBeyondCapacityIsDropped : Prop :=
  (∀ (s : State) (t : Nat) (d : Bit), s.rx.rxEnabled = true → t ≤ s.rx.lastEdgeTime + 100000 →
      (s.rx.bitCount < s.cfg.accCapacity → ∃ u, exec (.rxEdge t d) s = .next u ∧
        u.result = .edge (.stored s.rx.bitCount d) ∧ u.rx.acc = s.rx.acc.set s.rx.bitCount d) ∧
      (s.cfg.accCapacity ≤ s.rx.bitCount → ∃ u, exec (.rxEdge t d) s = .next u ∧
        u.result = .edge (.dropped s.rx.bitCount) ∧ u.rx.acc = s.rx.acc)) ∧
    (∀ (s : State) (t : Nat) (d : Bit), s.rx.rxEnabled = true → t ≤ s.rx.lastEdgeTime + 100000 →
      (s.cfg.accCapacity = 25 → s.rx.bitCount = 24 →
        ∃ u, exec (.rxEdge t d) s = .next u ∧ u.result = .edge (.stored 24 d)) ∧
      (s.cfg.accCapacity = 25 → s.rx.bitCount = 25 →
        ∃ u, exec (.rxEdge t d) s = .next u ∧ u.result = .edge (.dropped 25)) ∧
      (s.cfg.accCapacity = 24 → s.rx.bitCount = 24 →
        ∃ u, exec (.rxEdge t d) s = .next u ∧ u.result = .edge (.dropped 24)))

/-- RX_EDGE leaves every slot but the one it samples into, and never goes past the capacity. Derived from R61, R68,
R151. -/
def Obligations.EdgeWritesAtMostItsSlot : Prop :=
  ∀ (s u : State) (t : Nat) (d : Bit), exec (.rxEdge t d) s = .next u →
    u.rx.acc.length = s.rx.acc.length ∧
    (∀ j : Nat, j ≠ resyncedCount t s.rx → accSlot u.rx.acc j = accSlot s.rx.acc j) ∧
    (∀ j : Nat, s.cfg.accCapacity ≤ j → accSlot u.rx.acc j = accSlot s.rx.acc j)

/-- A run of enabled edges without silence fills the slots in order, counts every edge, and never overruns. Derived from
R30, R155, R156, R61, R42, R151, R152. -/
def Obligations.EdgesFillTheAccumulatorInOrder : Prop :=
  ∀ (s : State) (edges : List (Nat × Bit)), s.rx.rxEnabled = true →
    startsCapture s.rx (edges.map Prod.fst) = true → Memory.wf s.cfg.accCapacity s.rx.acc →
    gapless (edges.map Prod.fst) = true →
    ∃ t, execAll (edgeInstrs edges) s = .next t ∧ t.rx.bitCount = edges.length ∧
      (∀ k < min edges.length s.cfg.accCapacity, t.rx.acc[k]? = (edges.map Prod.snd)[k]?) ∧
      (∀ k ≥ edges.length, t.rx.acc[k]? = s.rx.acc[k]?) ∧ t.rx.acc.length = s.rx.acc.length ∧
      t.rx.statusLed = (s.rx.statusLed ^^ decide (edges.length % 2 = 1))

/-- RX_ENABLE sets rx_enabled and takes the clock level; RX_DISABLE clears rx_enabled; nothing else changes. Derived
from R162, R163, R33, R34. -/
def Obligations.EnableAndDisableSetOneBit : Prop :=
  ∀ s : State,
    exec .rxEnable s =
      .next { s with rx := { s.rx with rxEnabled := true, cinPrev := levelClockIn s }, result := .nothing } ∧
    exec .rxDisable s = .next { s with rx := { s.rx with rxEnabled := false }, result := .nothing }

/-- ASM_POLL below the threshold returns NoFrame and changes no register. Derived from R69, R171, R172, R178. -/
def Obligations.IncompleteCaptureIsNoFrame : Prop :=
  ∀ s : State, s.rx.bitCount < s.cfg.frameThreshold →
    exec .asmPoll s = .next { s with result := .poll .noFrame }

/-- ASM_POLL at or above the threshold consumes slots 0 to 23: Decoded and latched, or discarded as BAD. Derived from
R171, R172, R174, R175, R192, R207. Rests on choices of the model: log 24. -/
def Obligations.CompleteCaptureIsConsumed : Prop :=
  ∀ s : State, s.cfg.frameThreshold ≤ s.rx.bitCount → 24 ≤ s.rx.acc.length → ∃ pre p c : Byte,
    pre.toNat = ∑ k ∈ Finset.range 8, (s.rx.acc.getD k false).toNat * 2 ^ (7 - k) ∧
    p.toNat = ∑ k ∈ Finset.range 8, (s.rx.acc.getD (8 + k) false).toNat * 2 ^ (7 - k) ∧
    c.toNat = ∑ k ∈ Finset.range 8, (s.rx.acc.getD (16 + k) false).toNat * 2 ^ (7 - k) ∧
    exec .asmPoll s =
      if c.toNat = (pre.toNat + p.toNat) % 256 then
        .next { s with rx := { s.rx with bitCount := 0 }, latch := ⟨p, .ok⟩, pulses := { s.pulses with rxOk := true },
                       result := .poll (.decoded ⟨pre, p, c⟩) }
      else
        .next { s with rx := { s.rx with bitCount := 0 }, latch := { s.latch with status := .bad },
                       pulses := { s.pulses with rxBad := true }, result := .poll .decodeFailure }

/-- Edges carrying TO_BITS of any valid frame, then any other samples, then a poll, deliver that frame. Derived from
R107, R151, R155, R171, 95_test_vectors.md V6. -/
def Obligations.SentFrameIsReceived : Prop :=
  ∀ (s : State) (F : Frame) (edges : List (Nat × Bit)) (others : List Bit), s.rx.rxEnabled = true →
    startsCapture s.rx (edges.map Prod.fst) = true → Memory.wf s.cfg.accCapacity s.rx.acc → 24 ≤ s.cfg.accCapacity →
    s.cfg.frameThreshold ≤ edges.length → gapless (edges.map Prod.fst) = true →
    F.checksum.toNat = (F.preamble.toNat + F.payload.toNat) % 256 → edges.map Prod.snd = frameToBits F ++ others →
    ∃ t, execAll (edgeInstrs edges ++ [.asmPoll]) s = .next t ∧ t.result = .poll (.decoded F) ∧
      t.latch = ⟨F.payload, .ok⟩ ∧ t.rx.bitCount = 0

/-- Twenty-four 0 samples are an accepted frame of payload 0; twenty-four 1 samples are not. Derived from R236, R105,
R207. Rests on choices of the model: log 24. -/
def Obligations.StuckLowLineDeliversZero : Prop :=
  ∀ s : State, s.cfg.frameThreshold ≤ s.rx.bitCount →
    (s.rx.acc.take 24 = List.replicate 24 false →
      exec .asmPoll s = .next { s with rx := { s.rx with bitCount := 0 }, latch := ⟨0, .ok⟩,
                                       pulses := { s.pulses with rxOk := true }, result := .poll (.decoded ⟨0, 0, 0⟩) }) ∧
    (s.rx.acc.take 24 = List.replicate 24 true →
      exec .asmPoll s = .next { s with rx := { s.rx with bitCount := 0 }, latch := { s.latch with status := .bad },
                                       pulses := { s.pulses with rxBad := true }, result := .poll .decodeFailure })

/-- Each of the fifteen command words, when executed, delivers its payload. Derived from R88, R89, R171, R207. Rests on
choices of the model: log 3, log 19, log 24. Rests on the spec's own decision D14. -/
def Obligations.CommandWordsDeliverTheirPayload : Prop :=
  ∀ (s : State), ∀ row ∈
    ([(.off, 0x00, 0x55), (.on, 0x01, 0x56), (.level2, 0x02, 0x57), (.level3, 0x03, 0x58), (.level4, 0x04,
     0x59), (.level5, 0x05, 0x5A), (.level6, 0x06, 0x5B), (.cmd7, 0x07, 0x5C), (.cmd8, 0x08, 0x5D),
     (.cmd9, 0x09, 0x5E), (.cmd10, 0x0A, 0x5F), (.cmd11, 0x0B, 0x60), (.cmd12, 0x0C, 0x61), (.cmd13,
     0x0D, 0x62), (.cmd14, 0x0E, 0x63)] : List (Instr × Byte × Byte)),
    exec row.1 s = .next { s with rx := { s.rx with bitCount := 0 }, latch := ⟨row.2.1, .ok⟩,
                                  pulses := { s.pulses with rxOk := true },
                                  result := .poll (.decoded ⟨0x55, row.2.1, row.2.2⟩) }

/-- FRAME with a right checksum delivers its payload, with a wrong one is discarded as BAD. Derived from R80, R101,
R171, R192, R207. Rests on choices of the model: log 3, log 24. -/
def Obligations.FrameWordIsDeliveredOrDiscarded : Prop :=
  ∀ (s : State) (p c : Byte),
    (c.toNat = (0x55 + p.toNat) % 256 →
      exec (.frame p c) s = .next { s with rx := { s.rx with bitCount := 0 }, latch := ⟨p, .ok⟩,
                                           pulses := { s.pulses with rxOk := true }, result := .poll (.decoded ⟨0x55, p, c⟩) }) ∧
    (c.toNat ≠ (0x55 + p.toNat) % 256 →
      exec (.frame p c) s = .next { s with rx := { s.rx with bitCount := 0 }, latch := { s.latch with status := .bad },
                                           pulses := { s.pulses with rxBad := true }, result := .poll .decodeFailure })

/-- RESET completes with every register at the value of rule R40's table. Derived from R40, R220, D9. Rests on choices
of the model: log 6, log 16, log 24. Rests on the spec's own decision D9. -/
def Obligations.ResetGivesEveryRegisterItsValue : Prop :=
  ∀ s : State, 1 ≤ s.cfg.baud →
    exec .reset s =
      .next { cfg := s.cfg
              timing := ⟨1000000 / s.cfg.baud, 1000000 / s.cfg.baud / 2, 6 * (1000000 / s.cfg.baud)⟩
              tx := { frame := 0, busy := false, phase := .idle, bit := 0, deadline := 0, clockOut := false,
                      dataOut := false }
              rx := { lastEdgeTime := 0, bitCount := 0, acc := List.replicate s.cfg.accCapacity false,
                      statusLed := false, rxEnabled := false, cinPrev := false }
              latch := { payload := 0, status := .none }
              pulses := { txUnknown := false, rxOk := false, rxBad := false }
              env := { s.env with now := 0, dataMoved := none }
              result := .nothing }

/-- The state after reset satisfies the invariant. Derived from R40, R41, R8. -/
def Obligations.ResetStateIsGood : Prop :=
  State.reset.Inv

/-- Every step from a good state leads to a good state. Derived from R41, R22, R24, R26, R31, R127. -/
def Obligations.StepKeepsGoodStates : Prop :=
  ∀ s t : State, s.Inv → step s = .next t → t.Inv

/-- From a good state the machine can always take a step: no error stops the block. Derived from R195, R199, R190. -/
def Obligations.GoodStatesNeverStop : Prop :=
  ∀ s : State, s.Inv → ∃ t, step s = .next t

/-- No instruction and no step writes a parameter; no instruction but RESET writes the timing profile. Derived from R21,
R22, R220. Rests on choices of the model: log 13. -/
def Obligations.ParametersAndProfileAreNeverWritten : Prop :=
  (∀ (i : Instr) (s t : State), exec i s = .next t → t.cfg = s.cfg) ∧
    (∀ s t : State, step s = .next t → t.cfg = s.cfg) ∧
    (∀ (i : Instr) (s t : State), exec i s = .next t → t.timing = s.timing ∨
      (i = .reset ∧ t.timing = timingOf s.cfg.baud))

/-- The access table: which instructions may write which register. Derived from R39, R29, R30, R31, R35, R36, R76, R38,
R207. Rests on choices of the model: log 2, log 3, log 24. -/
def Obligations.EachRegisterHasItsWriters : Prop :=
  ∀ (i : Instr) (s t : State), i ≠ .reset → exec i s = .next t →
    ((∀ τ d, i ≠ .rxEdge τ d) →
      t.rx.lastEdgeTime = s.rx.lastEdgeTime ∧ t.rx.acc = s.rx.acc ∧ t.rx.statusLed = s.rx.statusLed ∧
      (t.rx.bitCount = s.rx.bitCount ∨ (t.rx.bitCount = 0 ∧ (i = .asmPoll ∨ i.isFrameWord = true)))) ∧
    (i ≠ .rxEnable → t.rx.cinPrev = s.rx.cinPrev ∧ (i ≠ .rxDisable → t.rx.rxEnabled = s.rx.rxEnabled)) ∧
    (i ≠ .asmPoll → i.isFrameWord = false → t.latch = s.latch) ∧
    ((∀ c, i ≠ .send c) → (∀ W, i ≠ .txFrame W) → t.tx = s.tx ∧ t.env = s.env) ∧
    ((∀ c, i ≠ .send c) → i ≠ .asmPoll → i.isFrameWord = false → t.pulses = s.pulses)

/-- What RX_EDGE, RX_DISABLE and ASM_POLL do depends on the receive side and the parameters alone. Derived from R76,
R39, R178. -/
def Obligations.ReceiveSideIgnoresTheTransmitter : Prop :=
  ∀ (i : Instr) (s s' t : State), (i = .asmPoll ∨ i = .rxDisable ∨ ∃ τ d, i = .rxEdge τ d) → s'.cfg = s.cfg →
    s'.rx = s.rx → s'.latch = s.latch → exec i s = .next t →
    ∃ t', exec i s' = .next t' ∧ t'.rx = t.rx ∧ t'.latch = t.latch ∧ t'.result = t.result

/-- A started frame reaches the rest state at T0 + F + 24P whatever else happens, with either wiring, unless a RESET
comes. Derived from R122, R127, R128, R25, R74, R76, R225. Rests on choices of the model: log 2, log 10. -/
def Obligations.FrameReachesTheRestStateWhateverHappens : Prop :=
  ∀ (s u : State) (W : Word24), s.Inv → s.tx.busy = false → (∀ e ∈ s.env.script, e.event ≠ .reset) →
    exec (.txFrame W) s = .next u →
    ∃ n v, stepN n u = .next v ∧
      v.tx = ⟨W, false, .idle, 23, s.env.now + s.timing.frontPorch + 24 * (200 + 2 * s.timing.halfCycle), true, true⟩ ∧
      v.env.now = s.env.now + s.timing.frontPorch + 24 * (200 + 2 * s.timing.halfCycle)

/-- A pulse output is raised by the operation it reports, stays up for that clock, and is down once time has passed.
Derived from R207. Rests on choices of the model: log 3, log 24. -/
def Obligations.PulsePortsLastOneClock : Prop :=
  (∀ (i : Instr) (s t : State), i ≠ .reset → exec i s = .next t →
      (t.pulses.txUnknown = true ↔ s.pulses.txUnknown = true ∨ ∃ c, t.result = .send (.unknownCommandError c)) ∧
      (t.pulses.rxOk = true ↔ s.pulses.rxOk = true ∨ ∃ F, t.result = .poll (.decoded F)) ∧
      (t.pulses.rxBad = true ↔ s.pulses.rxBad = true ∨ t.result = .poll .decodeFailure)) ∧
    (∀ s t : State, resetDue s.env.now s.env.script = none → step s = .next t → t.env.now = s.env.now →
      (s.pulses.txUnknown = true → t.pulses.txUnknown = true) ∧ (s.pulses.rxOk = true → t.pulses.rxOk = true) ∧
      (s.pulses.rxBad = true → t.pulses.rxBad = true)) ∧
    (∀ s t : State, step s = .next t → s.env.now < t.env.now → t.pulses = ⟨false, false, false⟩) ∧
    (∀ s : State, (outPorts s).txUnknown = s.pulses.txUnknown ∧ (outPorts s).rxOk = s.pulses.rxOk ∧
      (outPorts s).rxBad = s.pulses.rxBad ∧
      (outPorts s).rxStatus = match s.latch.status with | .none => 0 | .ok => 1 | .bad => 2)
end

