-- ==== Sys2Proof/Laws/State.lean ====
section
/-! SUPPORT. One lemma per field per setter of State, true by rfl, so that no later proof unfolds a record update; and
the same for the named updates of the registers that the flags file defines. -/

namespace Sys2Proof.Machine

@[simp] theorem State.withTx_cfg (s : State) (v : TxState) : (s.withTx v).cfg = s.cfg := rfl
@[simp] theorem State.withTx_timing (s : State) (v : TxState) : (s.withTx v).timing = s.timing := rfl
@[simp] theorem State.withTx_tx (s : State) (v : TxState) : (s.withTx v).tx = v := rfl
@[simp] theorem State.withTx_rx (s : State) (v : TxState) : (s.withTx v).rx = s.rx := rfl
@[simp] theorem State.withTx_latch (s : State) (v : TxState) : (s.withTx v).latch = s.latch := rfl
@[simp] theorem State.withTx_env (s : State) (v : TxState) : (s.withTx v).env = s.env := rfl
@[simp] theorem State.withTx_pulses (s : State) (v : TxState) : (s.withTx v).pulses = s.pulses := rfl
@[simp] theorem State.withTx_result (s : State) (v : TxState) : (s.withTx v).result = s.result := rfl
@[simp] theorem State.withTx_withTx (s : State) (v w : TxState) : (s.withTx v).withTx w = s.withTx w := rfl

@[simp] theorem State.withRx_cfg (s : State) (v : RxState) : (s.withRx v).cfg = s.cfg := rfl
@[simp] theorem State.withRx_timing (s : State) (v : RxState) : (s.withRx v).timing = s.timing := rfl
@[simp] theorem State.withRx_tx (s : State) (v : RxState) : (s.withRx v).tx = s.tx := rfl
@[simp] theorem State.withRx_rx (s : State) (v : RxState) : (s.withRx v).rx = v := rfl
@[simp] theorem State.withRx_latch (s : State) (v : RxState) : (s.withRx v).latch = s.latch := rfl
@[simp] theorem State.withRx_env (s : State) (v : RxState) : (s.withRx v).env = s.env := rfl
@[simp] theorem State.withRx_pulses (s : State) (v : RxState) : (s.withRx v).pulses = s.pulses := rfl
@[simp] theorem State.withRx_result (s : State) (v : RxState) : (s.withRx v).result = s.result := rfl
@[simp] theorem State.withRx_withRx (s : State) (v w : RxState) : (s.withRx v).withRx w = s.withRx w := rfl

@[simp] theorem State.withLatch_cfg (s : State) (v : OutLatch) : (s.withLatch v).cfg = s.cfg := rfl
@[simp] theorem State.withLatch_timing (s : State) (v : OutLatch) : (s.withLatch v).timing = s.timing := rfl
@[simp] theorem State.withLatch_tx (s : State) (v : OutLatch) : (s.withLatch v).tx = s.tx := rfl
@[simp] theorem State.withLatch_rx (s : State) (v : OutLatch) : (s.withLatch v).rx = s.rx := rfl
@[simp] theorem State.withLatch_latch (s : State) (v : OutLatch) : (s.withLatch v).latch = v := rfl
@[simp] theorem State.withLatch_env (s : State) (v : OutLatch) : (s.withLatch v).env = s.env := rfl
@[simp] theorem State.withLatch_pulses (s : State) (v : OutLatch) : (s.withLatch v).pulses = s.pulses := rfl
@[simp] theorem State.withLatch_result (s : State) (v : OutLatch) : (s.withLatch v).result = s.result := rfl
@[simp] theorem State.withLatch_withLatch (s : State) (v w : OutLatch) : (s.withLatch v).withLatch w = s.withLatch w := rfl

@[simp] theorem State.withEnv_cfg (s : State) (v : Env) : (s.withEnv v).cfg = s.cfg := rfl
@[simp] theorem State.withEnv_timing (s : State) (v : Env) : (s.withEnv v).timing = s.timing := rfl
@[simp] theorem State.withEnv_tx (s : State) (v : Env) : (s.withEnv v).tx = s.tx := rfl
@[simp] theorem State.withEnv_rx (s : State) (v : Env) : (s.withEnv v).rx = s.rx := rfl
@[simp] theorem State.withEnv_latch (s : State) (v : Env) : (s.withEnv v).latch = s.latch := rfl
@[simp] theorem State.withEnv_env (s : State) (v : Env) : (s.withEnv v).env = v := rfl
@[simp] theorem State.withEnv_pulses (s : State) (v : Env) : (s.withEnv v).pulses = s.pulses := rfl
@[simp] theorem State.withEnv_result (s : State) (v : Env) : (s.withEnv v).result = s.result := rfl
@[simp] theorem State.withEnv_withEnv (s : State) (v w : Env) : (s.withEnv v).withEnv w = s.withEnv w := rfl

@[simp] theorem State.withResult_cfg (s : State) (v : OpResult) : (s.withResult v).cfg = s.cfg := rfl
@[simp] theorem State.withResult_timing (s : State) (v : OpResult) : (s.withResult v).timing = s.timing := rfl
@[simp] theorem State.withResult_tx (s : State) (v : OpResult) : (s.withResult v).tx = s.tx := rfl
@[simp] theorem State.withResult_rx (s : State) (v : OpResult) : (s.withResult v).rx = s.rx := rfl
@[simp] theorem State.withResult_latch (s : State) (v : OpResult) : (s.withResult v).latch = s.latch := rfl
@[simp] theorem State.withResult_env (s : State) (v : OpResult) : (s.withResult v).env = s.env := rfl
@[simp] theorem State.withResult_pulses (s : State) (v : OpResult) : (s.withResult v).pulses = s.pulses := rfl
@[simp] theorem State.withResult_result (s : State) (v : OpResult) : (s.withResult v).result = v := rfl
@[simp] theorem State.withResult_withResult (s : State) (v w : OpResult) : (s.withResult v).withResult w = s.withResult w := rfl

@[simp] theorem State.withPulses_cfg (s : State) (v : Pulses) : (s.withPulses v).cfg = s.cfg := rfl
@[simp] theorem State.withPulses_timing (s : State) (v : Pulses) : (s.withPulses v).timing = s.timing := rfl
@[simp] theorem State.withPulses_tx (s : State) (v : Pulses) : (s.withPulses v).tx = s.tx := rfl
@[simp] theorem State.withPulses_rx (s : State) (v : Pulses) : (s.withPulses v).rx = s.rx := rfl
@[simp] theorem State.withPulses_latch (s : State) (v : Pulses) : (s.withPulses v).latch = s.latch := rfl
@[simp] theorem State.withPulses_env (s : State) (v : Pulses) : (s.withPulses v).env = s.env := rfl
@[simp] theorem State.withPulses_result (s : State) (v : Pulses) : (s.withPulses v).result = s.result := rfl
@[simp] theorem State.withPulses_pulses (s : State) (v : Pulses) : (s.withPulses v).pulses = v := rfl
@[simp] theorem State.withPulses_withPulses (s : State) (v w : Pulses) : (s.withPulses v).withPulses w = s.withPulses w := rfl

@[simp] theorem State.returning_cfg (s : State) (r : OpResult) : (s.returning r).cfg = s.cfg := rfl
@[simp] theorem State.returning_timing (s : State) (r : OpResult) : (s.returning r).timing = s.timing := rfl
@[simp] theorem State.returning_tx (s : State) (r : OpResult) : (s.returning r).tx = s.tx := rfl
@[simp] theorem State.returning_rx (s : State) (r : OpResult) : (s.returning r).rx = s.rx := rfl
@[simp] theorem State.returning_latch (s : State) (r : OpResult) : (s.returning r).latch = s.latch := rfl
@[simp] theorem State.returning_env (s : State) (r : OpResult) : (s.returning r).env = s.env := rfl
@[simp] theorem State.returning_result (s : State) (r : OpResult) : (s.returning r).result = r := rfl
@[simp] theorem State.returning_pulses (s : State) (r : OpResult) : (s.returning r).pulses = s.pulses.raisedBy r := rfl

@[simp] theorem State.withScript_cfg (s : State) (l : List Timed) : (s.withScript l).cfg = s.cfg := rfl
@[simp] theorem State.withScript_timing (s : State) (l : List Timed) : (s.withScript l).timing = s.timing := rfl
@[simp] theorem State.withScript_tx (s : State) (l : List Timed) : (s.withScript l).tx = s.tx := rfl
@[simp] theorem State.withScript_rx (s : State) (l : List Timed) : (s.withScript l).rx = s.rx := rfl
@[simp] theorem State.withScript_latch (s : State) (l : List Timed) : (s.withScript l).latch = s.latch := rfl
@[simp] theorem State.withScript_pulses (s : State) (l : List Timed) : (s.withScript l).pulses = s.pulses := rfl
@[simp] theorem State.withScript_result (s : State) (l : List Timed) : (s.withScript l).result = s.result := rfl
@[simp] theorem State.withScript_script (s : State) (l : List Timed) : (s.withScript l).env.script = l := rfl
@[simp] theorem State.withScript_now (s : State) (l : List Timed) : (s.withScript l).env.now = s.env.now := rfl
@[simp] theorem State.withScript_clockIn (s : State) (l : List Timed) : (s.withScript l).env.clockIn = s.env.clockIn := rfl
@[simp] theorem State.withScript_dataIn (s : State) (l : List Timed) : (s.withScript l).env.dataIn = s.env.dataIn := rfl
@[simp] theorem State.withScript_dataMoved (s : State) (l : List Timed) : (s.withScript l).env.dataMoved = s.env.dataMoved := rfl
@[simp] theorem State.withScript_draws (s : State) (l : List Timed) : (s.withScript l).env.draws = s.env.draws := rfl

@[simp] theorem RxState.toggleLed_lastEdgeTime (r : RxState) : r.toggleLed.lastEdgeTime = r.lastEdgeTime := rfl
@[simp] theorem RxState.toggleLed_bitCount (r : RxState) : r.toggleLed.bitCount = r.bitCount := rfl
@[simp] theorem RxState.toggleLed_acc (r : RxState) : r.toggleLed.acc = r.acc := rfl
@[simp] theorem RxState.toggleLed_statusLed (r : RxState) : r.toggleLed.statusLed = (!r.statusLed) := rfl
@[simp] theorem RxState.toggleLed_rxEnabled (r : RxState) : r.toggleLed.rxEnabled = r.rxEnabled := rfl
@[simp] theorem RxState.toggleLed_cinPrev (r : RxState) : r.toggleLed.cinPrev = r.cinPrev := rfl

@[simp] theorem RxState.enable_lastEdgeTime (r : RxState) : r.enable.lastEdgeTime = r.lastEdgeTime := rfl
@[simp] theorem RxState.enable_bitCount (r : RxState) : r.enable.bitCount = r.bitCount := rfl
@[simp] theorem RxState.enable_acc (r : RxState) : r.enable.acc = r.acc := rfl
@[simp] theorem RxState.enable_statusLed (r : RxState) : r.enable.statusLed = r.statusLed := rfl
@[simp] theorem RxState.enable_rxEnabled (r : RxState) : r.enable.rxEnabled = true := rfl
@[simp] theorem RxState.enable_cinPrev (r : RxState) : r.enable.cinPrev = r.cinPrev := rfl

@[simp] theorem RxState.disable_lastEdgeTime (r : RxState) : r.disable.lastEdgeTime = r.lastEdgeTime := rfl
@[simp] theorem RxState.disable_bitCount (r : RxState) : r.disable.bitCount = r.bitCount := rfl
@[simp] theorem RxState.disable_acc (r : RxState) : r.disable.acc = r.acc := rfl
@[simp] theorem RxState.disable_statusLed (r : RxState) : r.disable.statusLed = r.statusLed := rfl
@[simp] theorem RxState.disable_rxEnabled (r : RxState) : r.disable.rxEnabled = false := rfl
@[simp] theorem RxState.disable_cinPrev (r : RxState) : r.disable.cinPrev = r.cinPrev := rfl

@[simp] theorem Pulses.raisedBy_txUnknown (r : OpResult) (p : Pulses) :
    (p.raisedBy r).txUnknown = (r.sentUnknown || p.txUnknown) := rfl
@[simp] theorem Pulses.raisedBy_rxOk (r : OpResult) (p : Pulses) : (p.raisedBy r).rxOk = (r.polledOk || p.rxOk) := rfl
@[simp] theorem Pulses.raisedBy_rxBad (r : OpResult) (p : Pulses) : (p.raisedBy r).rxBad = (r.polledBad || p.rxBad) := rfl

@[simp] theorem OutLatch.accept_eq (F : Frame) (l : OutLatch) : l.accept F = ⟨F.payload, .ok⟩ := rfl
@[simp] theorem OutLatch.reject_payload (l : OutLatch) : l.reject.payload = l.payload := rfl
@[simp] theorem OutLatch.reject_status (l : OutLatch) : l.reject.status = .bad := rfl

end Sys2Proof.Machine
end

