-- ==== Sys2Proof/Laws/Ops.lean ====
section
/-! SUPPORT. For each shared operation, once, everything it can do: the provers cite these and unfold nothing. -/

namespace Sys2Proof.Machine

/-! ## Returning -/

@[simp] theorem answer_eq (r : OpResult) (s : State) : answer r s = .next (s.returning r) := rfl
@[simp] theorem raise_eq (r : OpResult) (s : State) : raise r s = .next (s.returning r) := rfl

/-- A result no pulse reports leaves the pulses alone: it is written and nothing else is. -/
theorem returning_quiet {r : OpResult} (s : State) (hu : r.sentUnknown = false) (ho : r.polledOk = false)
    (hb : r.polledBad = false) : s.returning r = { s with result := r } := by
  cases s; simp [State.returning, State.withResult, State.withPulses, Pulses.raisedBy, hu, ho, hb]

/-! ## The codec -/

@[simp] theorem checksum_toNat (a b : Byte) : (checksum a b).toNat = (a.toNat + b.toNat) % 256 := by
  simp [checksum]

theorem checksum_eq_add (a b : Byte) : checksum a b = a + b := by
  apply BitVec.eq_of_toNat_eq; simp [BitVec.toNat_add]

theorem checksumHolds_iff (F : Frame) :
    checksumHolds F = true ↔ F.checksum.toNat = (F.preamble.toNat + F.payload.toNat) % 256 := by
  simp [checksumHolds, ← BitVec.toNat_inj]

theorem validateFrame_ok {F : Frame} (h : F.checksum.toNat = (F.preamble.toNat + F.payload.toNat) % 256) :
    validateFrame F = .ok F := by
  simp [validateFrame, (checksumHolds_iff F).mpr h]

theorem validateFrame_bad {F : Frame} (h : F.checksum.toNat ≠ (F.preamble.toNat + F.payload.toNat) % 256) :
    validateFrame F = .checksumMismatch := by
  have : checksumHolds F = false := by
    rw [Bool.eq_false_iff]; exact fun hc => h ((checksumHolds_iff F).mp hc)
  simp [validateFrame, this]

/-- The frame an accepted validation returns is the frame validated. -/
theorem validateFrame_eq_ok {F G : Frame} (h : validateFrame F = .ok G) :
    G = F ∧ F.checksum.toNat = (F.preamble.toNat + F.payload.toNat) % 256 := by
  by_cases hc : F.checksum.toNat = (F.preamble.toNat + F.payload.toNat) % 256
  · rw [validateFrame_ok hc] at h; exact ⟨(FrameResult.ok.inj h).symm, hc⟩
  · rw [validateFrame_bad hc] at h; nomatch h

/-- The three bytes of a word made from three bytes. -/
theorem Frame.ofWord_word (F : Frame) : Frame.ofWord F.word = F := by
  obtain ⟨a, b, c⟩ := F
  simp only [Frame.ofWord, Frame.word, Frame.mk.injEq]
  refine ⟨?_, ?_, ?_⟩ <;> ext j hj <;> simp only [BitVec.getElem_extractLsb', BitVec.getLsbD_append]
  · simp only [show ¬ 16 + j < 8 by omega, show ¬ 16 + j - 8 < 8 by omega, show 16 + j - 8 - 8 = j by omega,
      BitVec.getLsbD_eq_getElem hj]
    rfl
  · simp [show ¬ 8 + j < 8 by omega, hj]
  · simp [hj]

@[simp] theorem byteBits_length (b : Byte) : (byteBits b).length = 8 := by simp [byteBits]
@[simp] theorem frameToBits_length (F : Frame) : (frameToBits F).length = 24 := by simp [frameToBits]
@[simp] theorem wireBits_length (W : Word24) : (wireBits W).length = 24 := by simp [wireBits]

theorem encodeCommand_known {c : Config} {id : Nat} {p : Byte} (h : c.cmdTable[id]? = some p) :
    encodeCommand c id = .ok ⟨0x55, p, checksum 0x55 p⟩ := by
  simp [encodeCommand, tableRead, h]

theorem encodeCommand_unknown {c : Config} {id : Nat} (h : c.cmdTable[id]? = none) :
    encodeCommand c id = .unknownCommandError id := by
  simp [encodeCommand, tableRead, h]

/-! ## The accumulator -/

@[simp] theorem accWrite_length (n : Nat) (acc : List Bit) (i : Nat) (d : Bit) :
    (accWrite n acc i d).length = acc.length := by
  unfold accWrite; split <;> simp

/-- AccWrite keeps the accumulator's form. -/
theorem accWrite_wf {n : Nat} {acc : List Bit} (i : Nat) (d : Bit) (h : Memory.wf n acc) :
    Memory.wf n (accWrite n acc i d) := by
  simpa [Memory.wf] using h

/-- Placing a capture keeps the accumulator's form. -/
theorem placeCapture_wf {n : Nat} {acc : List Bit} (W : Word24) (hn : 24 ≤ n) (h : Memory.wf n acc) :
    Memory.wf n (placeCapture W acc) := by
  simp only [Memory.wf] at h ⊢; simp [placeCapture, h]; omega

/-- The reset accumulator has its form. -/
theorem resetAcc_wf (c : Config) : Memory.wf c.accCapacity (State.resetFor c).rx.acc := by
  simp [Memory.wf, State.resetFor]

theorem accWrite_other {n : Nat} {acc : List Bit} {i j : Nat} {d : Bit} (h : j ≠ i) :
    (accWrite n acc i d)[j]? = acc[j]? := by
  unfold accWrite; split
  · exact List.getElem?_set_ne (Ne.symm h)
  · rfl

theorem accWrite_same {n : Nat} {acc : List Bit} {i : Nat} {d : Bit} (h : i < n) (hl : i < acc.length) :
    (accWrite n acc i d)[i]? = some d := by
  simp [accWrite, h, hl]

theorem accRead_all {acc : List Bit} {n : Nat} (h : n ≤ acc.length) : accRead acc 0 n = some (acc.take n) := by
  simp [accRead, h]

theorem accRead_short {acc : List Bit} {n : Nat} (h : acc.length < n) : accRead acc 0 n = none := by
  simp [accRead, h]

/-! ## The transmitter -/

@[simp] theorem carryData_now (v : Bit) (s : State) : (carryData v s).now = s.env.now := by
  unfold carryData noteDataIn; split <;> (try split) <;> rfl

/-- Driving data_out changes at most the note of when data_in moved, in the environment's side. -/
theorem carryData_eq (v : Bit) (s : State) : ∃ m, carryData v s = { s.env with dataMoved := m } ∧
    (m = s.env.dataMoved ∨ m = some s.env.now) := by
  unfold carryData noteDataIn
  split
  · exact ⟨s.env.dataMoved, rfl, .inl rfl⟩
  · split
    · exact ⟨s.env.dataMoved, rfl, .inl rfl⟩
    · exact ⟨some s.env.now, rfl, .inr rfl⟩

theorem startFrame_eq (W : Word24) (s : State) :
    startFrame W s =
      { s with
        tx := ⟨W, true, .porch, 0, s.env.now + s.timing.frontPorch, false, false⟩
        env := carryData false s } := rfl

theorem requestFrame_busy {W : Word24} {s : State} (h : s.tx.busy = true) :
    requestFrame W s = .next (s.returning (.send .busy)) := by simp [requestFrame, h]

theorem requestFrame_free {W : Word24} {s : State} (h : s.tx.busy = false) :
    requestFrame W s = .next ((startFrame W s).returning (.send .started)) := by simp [requestFrame, h]

theorem txStep_idle {s : State} (h : s.tx.phase = .idle) : txStep s = s := by simp [txStep, h]

theorem txStep_porch {s : State} (h : s.tx.phase = .porch) :
    txStep s =
      { s with
        tx := { s.tx with phase := .setup, bit := 0, deadline := s.tx.deadline + 100, dataOut := wireBit s.tx.frame 0 }
        env := carryData (wireBit s.tx.frame 0) s } := by
  simp only [txStep, h]; rfl

theorem txStep_setup {s : State} (h : s.tx.phase = .setup) :
    txStep s =
      { s with
        tx := { s.tx with phase := .high, deadline := s.tx.deadline + s.timing.halfCycle, clockOut := true } } := by
  simp only [txStep, h]; rfl

theorem txStep_high {s : State} (h : s.tx.phase = .high) :
    txStep s =
      { s with tx := { s.tx with phase := .fall, deadline := s.tx.deadline + 100, clockOut := false } } := by
  simp only [txStep, h]; rfl

theorem txStep_fall {s : State} (h : s.tx.phase = .fall) :
    txStep s =
      { s with
        tx := { s.tx with phase := .low, deadline := s.tx.deadline + s.timing.halfCycle, dataOut := false }
        env := carryData false s } := by
  simp only [txStep, h]; rfl

theorem txStep_low_next {s : State} (h : s.tx.phase = .low) (hb : s.tx.bit < 23) :
    txStep s =
      { s with
        tx := { s.tx with phase := .setup, bit := s.tx.bit + 1, deadline := s.tx.deadline + 100,
                          dataOut := wireBit s.tx.frame (s.tx.bit + 1) }
        env := carryData (wireBit s.tx.frame (s.tx.bit + 1)) s } := by
  simp only [txStep, h, hb, if_true]; rfl

theorem txStep_low_last {s : State} (h : s.tx.phase = .low) (hb : ¬ s.tx.bit < 23) :
    txStep s =
      { s with
        tx := { s.tx with phase := .idle, busy := false, clockOut := true, dataOut := true }
        env := carryData true s } := by
  simp only [txStep, h, hb, if_false]; rfl

/-- TX_STEP changes the transmitter and at most the note of when data_in moved. -/
theorem txStep_frame (s : State) : ∃ m,
    txStep s = { s with tx := (txStep s).tx, env := { s.env with dataMoved := m } } ∧
    (txStep s).tx.frame = s.tx.frame ∧ (m = s.env.dataMoved ∨ m = some s.env.now) := by
  rcases hp : s.tx.phase with _ | _ | _ | _ | _ | _
  · exact ⟨s.env.dataMoved, by rw [txStep_idle hp], by rw [txStep_idle hp], .inl rfl⟩
  · obtain ⟨m, hm, h⟩ := carryData_eq (wireBit s.tx.frame 0) s
    exact ⟨m, by rw [txStep_porch hp, hm], by rw [txStep_porch hp], h⟩
  · exact ⟨s.env.dataMoved, by rw [txStep_setup hp], by rw [txStep_setup hp], .inl rfl⟩
  · exact ⟨s.env.dataMoved, by rw [txStep_high hp], by rw [txStep_high hp], .inl rfl⟩
  · obtain ⟨m, hm, h⟩ := carryData_eq false s
    exact ⟨m, by rw [txStep_fall hp, hm], by rw [txStep_fall hp], h⟩
  · by_cases hb : s.tx.bit < 23
    · obtain ⟨m, hm, h⟩ := carryData_eq (wireBit s.tx.frame (s.tx.bit + 1)) s
      exact ⟨m, by rw [txStep_low_next hp hb, hm], by rw [txStep_low_next hp hb], h⟩
    · obtain ⟨m, hm, h⟩ := carryData_eq true s
      exact ⟨m, by rw [txStep_low_last hp hb, hm], by rw [txStep_low_last hp hb], h⟩

/-- What a TX_STEP does to the transmitter depends on the transmitter and the timing profile alone. -/
theorem txStep_tx_congr {s t : State} (h : t.tx = s.tx) (h' : t.timing = s.timing) : (txStep t).tx = (txStep s).tx := by
  rcases hp : s.tx.phase with _ | _ | _ | _ | _ | _
  · rw [txStep_idle hp, txStep_idle (by rw [h, hp]), h]
  · rw [txStep_porch hp, txStep_porch (by rw [h, hp])]; simp [h]
  · rw [txStep_setup hp, txStep_setup (by rw [h, hp])]; simp [h, h']
  · rw [txStep_high hp, txStep_high (by rw [h, hp])]; simp [h]
  · rw [txStep_fall hp, txStep_fall (by rw [h, hp])]; simp [h, h']
  · by_cases hb : s.tx.bit < 23
    · rw [txStep_low_next hp hb, txStep_low_next (by rw [h, hp]) (by rw [h]; exact hb)]; simp [h]
    · rw [txStep_low_last hp hb, txStep_low_last (by rw [h, hp]) (by rw [h]; exact hb)]; simp [h]

/-! ## The receiver -/

theorem resyncedCount_silence {t : Nat} {r : RxState} (h : r.lastEdgeTime + 100000 < t) : resyncedCount t r = 0 := by
  simp [resyncedCount, h]

theorem resyncedCount_noSilence {t : Nat} {r : RxState} (h : t ≤ r.lastEdgeTime + 100000) :
    resyncedCount t r = r.bitCount := by
  have : ¬ r.lastEdgeTime + 100000 < t := Nat.not_lt.mpr h
  simp [resyncedCount, this]

@[simp] theorem sampleEdge_lastEdgeTime (n : Nat) (t : Nat) (d : Bit) (r : RxState) :
    (sampleEdge n t d r).lastEdgeTime = t := rfl
@[simp] theorem sampleEdge_bitCount (n : Nat) (t : Nat) (d : Bit) (r : RxState) :
    (sampleEdge n t d r).bitCount = resyncedCount t r + 1 := rfl
@[simp] theorem sampleEdge_acc (n : Nat) (t : Nat) (d : Bit) (r : RxState) :
    (sampleEdge n t d r).acc = accWrite n r.acc (resyncedCount t r) d := rfl
@[simp] theorem sampleEdge_statusLed (n : Nat) (t : Nat) (d : Bit) (r : RxState) :
    (sampleEdge n t d r).statusLed = (!r.statusLed) := rfl
@[simp] theorem sampleEdge_rxEnabled (n : Nat) (t : Nat) (d : Bit) (r : RxState) :
    (sampleEdge n t d r).rxEnabled = r.rxEnabled := rfl
@[simp] theorem sampleEdge_cinPrev (n : Nat) (t : Nat) (d : Bit) (r : RxState) :
    (sampleEdge n t d r).cinPrev = r.cinPrev := rfl

theorem pulseSeen_wide {s : State} (h : zeroWidthPulse s = false) : pulseSeen s = (true, s) := by
  simp [pulseSeen, h]

theorem sampleData_settled {s : State} (h : dataUnsettled s = false) : sampleData s = (levelDataIn s, s) := by
  simp [sampleData, h]

theorem sampleData_unsettled {s : State} (h : dataUnsettled s = true) :
    sampleData s = (Config.freeSample s.env.draws, countDraw s) := by
  simp [sampleData, h]

/-- Seeing a pulse changes at most the draw counter. -/
theorem pulseSeen_cases (s : State) : ∃ b k, pulseSeen s = (b, s.withEnv { s.env with draws := k }) := by
  unfold pulseSeen; split
  · exact ⟨_, _, rfl⟩
  · exact ⟨true, s.env.draws, rfl⟩

/-- Taking a sample changes at most the draw counter. -/
theorem sampleData_cases (s : State) : ∃ b k, sampleData s = (b, s.withEnv { s.env with draws := k }) := by
  unfold sampleData; split
  · exact ⟨_, _, rfl⟩
  · exact ⟨levelDataIn s, s.env.draws, rfl⟩

/-- What one step of the edge detector gives: cin_prev at the level of the clock, some free values counted, and a
sample only for a rising edge while enabled. -/
theorem detectEdge_eq (s : State) : ∃ k od, detectEdge s =
      ({ s with rx := { s.rx with cinPrev := levelClockIn s }, env := { s.env with draws := k } }, od) ∧
    (od ≠ none → risingEdge s = true) := by
  by_cases hr : risingEdge s = true
  · obtain ⟨b, k, hp⟩ := pulseSeen_cases (seeClock s)
    obtain ⟨d, k', hd⟩ := sampleData_cases ((seeClock s).withEnv { (seeClock s).env with draws := k })
    rcases b with _ | _
    · exact ⟨k, none, by unfold detectEdge; rw [if_pos hr, hp]; rfl, fun _ => hr⟩
    · exact ⟨k', some d, by unfold detectEdge; rw [if_pos hr, hp]; dsimp only; rw [if_pos rfl, hd]; rfl, fun _ => hr⟩
  · exact ⟨s.env.draws, none, by unfold detectEdge; rw [if_neg hr]; rfl, fun h => absurd rfl h⟩

/-- A settled rising edge of some width: the sample is the level of data_in and nothing is drawn. -/
theorem detectEdge_settled {s : State} (hr : risingEdge s = true) (hz : zeroWidthPulse s = false)
    (hd : dataUnsettled s = false) : detectEdge s = (seeClock s, some (levelDataIn s)) := by
  unfold detectEdge
  rw [if_pos hr, pulseSeen_wide (s := seeClock s) hz]
  dsimp only
  rw [if_pos rfl, sampleData_settled (s := seeClock s) hd]
  rfl

/-- A rising edge of some width while data_in changes: the sample is the next free value. -/
theorem detectEdge_unsettled {s : State} (hr : risingEdge s = true) (hz : zeroWidthPulse s = false)
    (hd : dataUnsettled s = true) :
    detectEdge s = (countDraw (seeClock s), some (Config.freeSample s.env.draws)) := by
  unfold detectEdge
  rw [if_pos hr, pulseSeen_wide (s := seeClock s) hz]
  dsimp only
  rw [if_pos rfl, sampleData_unsettled (s := seeClock s) hd]
  rfl

/-- No rising edge: the detector only takes the level. -/
theorem detectEdge_none {s : State} (hr : risingEdge s = false) : detectEdge s = (seeClock s, none) := by
  simp [detectEdge, hr]

/-! ## The assembler -/

theorem consume_ok (F : Frame) (s : State) :
    consume (.ok F) s =
      { s with
        rx := { s.rx with bitCount := 0 }
        latch := ⟨F.payload, .ok⟩
        pulses := { s.pulses with rxOk := true }
        result := .poll (.decoded F) } := rfl

theorem consume_bad (s : State) :
    consume .checksumMismatch s =
      { s with
        rx := { s.rx with bitCount := 0 }
        latch := { s.latch with status := .bad }
        pulses := { s.pulses with rxBad := true }
        result := .poll .decodeFailure } := rfl

/-- A consume changes the count, the latch, the result and the pulses that report it only. -/
theorem consume_frame (r : FrameResult) (s : State) : ∃ l q,
    consume r s =
      { s with rx := { s.rx with bitCount := 0 }, latch := l, pulses := s.pulses.raisedBy q, result := q } := by
  rcases r with F | _
  · exact ⟨_, _, rfl⟩
  · exact ⟨_, _, rfl⟩

/-! ## Reset -/

theorem resetRegisters_eq (s : State) :
    resetRegisters s =
      { State.resetFor s.cfg with env := { s.env with now := 0, dataMoved := none } } := rfl

/-! ## The meanings, case by case -/

/-- A frame word validates and consumes the frame its encoding spells. -/
theorem exec_frameWord {i : Instr} (h : i.isFrameWord = true) :
    ∃ W, encodeWord i = some W ∧ ∀ s, exec i s = .next (consume (validateFrame (Frame.ofWord W)) s) := by
  cases i
  case frame p c =>
    refine ⟨_, rfl, fun s => ?_⟩
    rw [Machine.Frame.ofWord_word]; rfl
  all_goals first | exact absurd h Bool.false_ne_true | exact ⟨_, rfl, fun _ => rfl⟩

theorem exec_rxEdge_enabled {s : State} (t : Nat) (d : Bit) (h : s.rx.rxEnabled = true) :
    exec (.rxEdge t d) s =
      .next ((s.withRx (sampleEdge s.cfg.accCapacity t d s.rx)).returning
        (.edge (sampleResult s.cfg.accCapacity t d s.rx))) := by
  simp [exec, execRxEdge, h]

theorem exec_rxEdge_disabled {s : State} (t : Nat) (d : Bit) (h : s.rx.rxEnabled = false) :
    exec (.rxEdge t d) s = .next (s.returning (.edge .ignored)) := by
  simp [exec, execRxEdge, h]

theorem exec_asmPoll_incomplete {s : State} (h : s.rx.bitCount < s.cfg.frameThreshold) :
    exec .asmPoll s = .next (s.returning (.poll .noFrame)) := by
  have : captureComplete s = false := by simp [captureComplete]; omega
  simp [exec, execAsmPoll, this]

theorem exec_asmPoll_complete {s : State} (h : s.cfg.frameThreshold ≤ s.rx.bitCount) (hl : 24 ≤ s.rx.acc.length) :
    exec .asmPoll s = .next (consume (bitsToFrame (s.rx.acc.take 24)) s) := by
  have : captureComplete s = true := by simp [captureComplete, h]
  simp [exec, execAsmPoll, this, accRead_all hl]

theorem exec_reset {s : State} (h : 1 ≤ s.cfg.baud) : exec .reset s = .next (resetRegisters s) := by
  have : s.cfg.baud ≠ 0 := by omega
  simp [exec, execReset, this]

/-- Everything an instruction other than RESET can do when it completes: a result alone (tx_unknown is raised by
SEND only, rx_ok and rx_bad by no such result); a sampled edge; a change of the two enable bits; a consume; or the
start of a frame. -/
theorem exec_cases {i : Instr} {s t : State} (hi : i ≠ .reset) (h : exec i s = .next t) :
    (∃ r, t = s.returning r ∧ r.polledOk = false ∧ r.polledBad = false ∧
      (r.sentUnknown = true → ∃ c, i = .send c)) ∨
    (∃ τ d, i = .rxEdge τ d ∧ s.rx.rxEnabled = true ∧
      t = (s.withRx (sampleEdge s.cfg.accCapacity τ d s.rx)).returning
        (.edge (sampleResult s.cfg.accCapacity τ d s.rx))) ∨
    (i = .rxEnable ∧ t = (s.withRx { s.rx with rxEnabled := true, cinPrev := levelClockIn s }).returning .nothing) ∨
    (i = .rxDisable ∧ t = (s.withRx { s.rx with rxEnabled := false }).returning .nothing) ∨
    ((i = .asmPoll ∨ i.isFrameWord = true) ∧ ∃ r, t = consume r s) ∨
    (((∃ c, i = .send c) ∨ ∃ W, i = .txFrame W) ∧ s.tx.busy = false ∧
      ∃ W, t = (startFrame W s).returning (.send .started)) := by
  by_cases hf : i.isFrameWord = true
  · obtain ⟨W, _, hx⟩ := exec_frameWord hf
    rw [hx] at h
    exact .inr (.inr (.inr (.inr (.inl ⟨.inr hf, _, (Host.Outcome.next.inj h).symm⟩))))
  cases i with
  | checksum a b => exact .inl ⟨_, (Host.Outcome.next.inj h).symm, rfl, rfl, fun hu => nomatch hu⟩
  | encode c =>
    rcases hc : encodeCommand s.cfg c with F | n <;> simp only [exec, execEncode, hc] at h <;>
      exact .inl ⟨_, (Host.Outcome.next.inj h).symm, rfl, rfl, fun hu => nomatch hu⟩
  | toBits F => exact .inl ⟨_, (Host.Outcome.next.inj h).symm, rfl, rfl, fun hu => nomatch hu⟩
  | fromBits bs =>
    simp only [exec, execFromBits] at h
    split at h
    · nomatch h
    · split at h <;> exact .inl ⟨_, (Host.Outcome.next.inj h).symm, rfl, rfl, fun hu => nomatch hu⟩
  | timing b =>
    simp only [exec, execTiming] at h
    split at h
    · nomatch h
    · exact .inl ⟨_, (Host.Outcome.next.inj h).symm, rfl, rfl, fun hu => nomatch hu⟩
  | send c =>
    rcases hc : encodeCommand s.cfg c with F | n <;> simp only [exec, execSend, hc] at h
    · rcases hb : s.tx.busy with _ | _
      · rw [requestFrame_free hb] at h
        exact .inr (.inr (.inr (.inr (.inr ⟨.inl ⟨c, rfl⟩, rfl, _, (Host.Outcome.next.inj h).symm⟩))))
      · rw [requestFrame_busy hb] at h
        exact .inl ⟨_, (Host.Outcome.next.inj h).symm, rfl, rfl, fun hu => nomatch hu⟩
    · exact .inl ⟨_, (Host.Outcome.next.inj h).symm, rfl, rfl, fun _ => ⟨c, rfl⟩⟩
  | txFrame W =>
    simp only [exec, execTxFrame] at h
    rcases hb : s.tx.busy with _ | _
    · rw [requestFrame_free hb] at h
      exact .inr (.inr (.inr (.inr (.inr ⟨.inr ⟨W, rfl⟩, rfl, _, (Host.Outcome.next.inj h).symm⟩))))
    · rw [requestFrame_busy hb] at h; exact .inl ⟨_, (Host.Outcome.next.inj h).symm, rfl, rfl, fun hu => nomatch hu⟩
  | rxEdge τ d =>
    rcases hb : s.rx.rxEnabled with _ | _
    · rw [exec_rxEdge_disabled τ d hb] at h; exact .inl ⟨_, (Host.Outcome.next.inj h).symm, rfl, rfl, fun hu => nomatch hu⟩
    · rw [exec_rxEdge_enabled τ d hb] at h
      exact .inr (.inl ⟨τ, d, rfl, rfl, (Host.Outcome.next.inj h).symm⟩)
  | rxEnable => exact .inr (.inr (.inl ⟨rfl, (Host.Outcome.next.inj h).symm⟩))
  | rxDisable => exact .inr (.inr (.inr (.inl ⟨rfl, (Host.Outcome.next.inj h).symm⟩)))
  | asmPoll =>
    simp only [exec, execAsmPoll] at h
    split at h
    · split at h
      · nomatch h
      · exact .inr (.inr (.inr (.inr (.inl ⟨.inl rfl, _, (Host.Outcome.next.inj h).symm⟩))))
    · exact .inl ⟨_, (Host.Outcome.next.inj h).symm, rfl, rfl, fun hu => nomatch hu⟩
  | reset => exact absurd rfl hi
  | _ => exact absurd rfl hf

/-- What an instruction other than RESET leaves on the pulse outputs: those that were up, and those its result reports. -/
theorem exec_pulses {i : Instr} {s t : State} (hi : i ≠ .reset) (h : exec i s = .next t) :
    t.pulses = s.pulses.raisedBy t.result := by
  rcases exec_cases hi h with ⟨r, rfl, _⟩ | ⟨τ, d, _, _, rfl⟩ | ⟨_, rfl⟩ | ⟨_, rfl⟩ | ⟨_, r, rfl⟩ | ⟨_, _, W, rfl⟩
  · rfl
  · rfl
  · rfl
  · rfl
  · obtain ⟨l, q, hc⟩ := consume_frame r s
    rw [hc]
  · rw [startFrame_eq]; rfl

/-- No instruction but RESET moves time. -/
theorem exec_now {i : Instr} {s t : State} (hi : i ≠ .reset) (h : exec i s = .next t) : t.env.now = s.env.now := by
  rcases exec_cases hi h with ⟨r, rfl, _⟩ | ⟨τ, d, _, _, rfl⟩ | ⟨_, rfl⟩ | ⟨_, rfl⟩ | ⟨_, r, rfl⟩ | ⟨_, _, W, rfl⟩
  · rfl
  · rfl
  · rfl
  · rfl
  · obtain ⟨l, q, hc⟩ := consume_frame r s
    rw [hc]
  · simp [startFrame_eq]

/-! ## Runs -/

/-- A run over two lists is the run over the first, then over the second. -/
theorem execAll_append {l : List Instr} (m : List Instr) {s t : State} (h : execAll l s = .next t) :
    execAll (l ++ m) s = execAll m t := by
  induction l generalizing s with
  | nil => rw [← Host.Outcome.next.inj h]; rfl
  | cons i l ih =>
    simp only [execAll, List.cons_append] at h ⊢
    split at h
    · rw [ih h]
    · nomatch h
    · nomatch h

/-- Steps add up. -/
theorem stepN_add {n m : Nat} {s t : State} (h : stepN n s = .next t) : stepN (n + m) s = stepN m t := by
  induction n generalizing s with
  | zero => rw [← Host.Outcome.next.inj h, Nat.zero_add]
  | succ n ih =>
    rw [show n + 1 + m = (n + m) + 1 by omega]
    simp only [stepN] at h ⊢
    split at h
    · exact ih h
    · nomatch h
    · nomatch h

end Sys2Proof.Machine
end

