-- ==== Sys2Proof/Laws/Decode.lean ====
section
/-! SUPPORT. What the decoder can answer, said once: the row it found, that a decoded instruction is a well-formed frame
word whose encoding is the word decoded, and what a captured instruction says of the accumulator. -/

namespace Sys2Proof

open Machine

/-- A word found in a list of rows is one of its rows. -/
theorem lookup_mem {W : Word24} {i : Instr} : ∀ l : List (Word24 × Instr), l.lookup W = some i → (W, i) ∈ l
  | [], h => nomatch h
  | (a, b) :: l, h => by
    rw [List.lookup_cons] at h
    split at h
    · rename_i hb; rw [eq_of_beq hb, Option.some.inj h]; exact List.mem_cons_self
    · exact List.mem_cons_of_mem _ (lookup_mem l h)

/-- Every command row is a well-formed frame word with the row's word as its encoding. -/
theorem commandRows_spec : ∀ p ∈ commandRows,
    p.2.isFrameWord = true ∧ p.2.WellFormed ∧ encodeWord p.2 = some p.1 := by decide

/-- A command word's fields find its row: no payload and checksum of a command word is left to FRAME. -/
theorem lookup_of_isCommandWord : ∀ p c : Byte, isCommandWord p c = true →
    (commandRows.lookup (Frame.word ⟨0x55, p, c⟩)).isSome = true := by
  intro p c h
  simp only [isCommandWord, Bool.and_eq_true, decide_eq_true_eq, beq_iff_eq] at h
  obtain ⟨hp, rfl⟩ := h
  have key : ∀ n : Fin 15, (commandRows.lookup
      (Frame.word ⟨0x55, BitVec.ofNat 8 n, 0x55 + BitVec.ofNat 8 n⟩)).isSome = true := by decide
  have := key ⟨p.toNat, by omega⟩
  simpa using this

/-- A word is the word of its own fields. -/
theorem Frame.word_ofWord (W : Word24) : (Frame.ofWord W).word = W := by
  apply BitVec.eq_of_getLsbD_eq
  intro k hk
  simp only [Frame.word, Frame.ofWord, BitVec.getLsbD_append, BitVec.getLsbD_extractLsb']
  have h1 : k < 8 → 0 + k = k := fun _ => by omega
  have h2 : ¬ k < 8 → 8 + (k - 8) = k := fun h => by omega
  have h3 : ¬ k - 8 < 8 → 16 + (k - 8 - 8) = k := fun h => by omega
  by_cases a : k < 8
  · simp [a]
  · by_cases b : k - 8 < 8
    · simp [a, b, h2 a]
    · simp [a, b, h3 b, show k - 8 - 8 < 8 by omega]

/-- The mask test of the FRAME row reads the preamble (30_encoding.md rule R93). -/
theorem mask_eq_iff (W : Word24) : W &&& 0xFF0000 = 0x550000 ↔ (Frame.ofWord W).preamble = 0x55 := by
  have e : ∀ k < 24, (0xFF0000 : BitVec 24).getLsbD k = decide (16 ≤ k) := by decide
  have f : ∀ k < 24, (0x550000 : BitVec 24).getLsbD k = (decide (16 ≤ k) && (0x55 : BitVec 8).getLsbD (k - 16)) := by
    decide
  constructor
  · intro h
    apply BitVec.eq_of_getLsbD_eq
    intro k hk
    have := congrArg (fun v => v.getLsbD (16 + k)) h
    simp only [BitVec.getLsbD_and, e (16 + k) (by omega), f (16 + k) (by omega)] at this
    simpa [Frame.ofWord, hk] using this
  · intro h
    apply BitVec.eq_of_getLsbD_eq
    intro k hk
    rw [BitVec.getLsbD_and, e k hk, f k hk, ← h]
    by_cases a : 16 ≤ k
    · simp [Frame.ofWord, a, show k - 16 < 8 by omega]
    · simp [a]

/-- What `decodeWord` answers: a command row, a FRAME whose word is no command word, or the rejection. -/
theorem decodeWord_cases (W : Word24) :
    (∃ i, (W, i) ∈ commandRows ∧ decodeWord W = .ok i) ∨
    (∃ p c, isCommandWord p c = false ∧ W = Frame.word ⟨0x55, p, c⟩ ∧ decodeWord W = .ok (.frame p c)) ∨
    ((Frame.ofWord W).preamble ≠ 0x55 ∧ decodeWord W = .error .notTransmitPreamble) := by
  rcases hl : commandRows.lookup W with _ | i
  · by_cases hm : W &&& 0xFF0000 = 0x550000
    · have hp := (mask_eq_iff W).mp hm
      have hW : W = Frame.word ⟨0x55, (Frame.ofWord W).payload, (Frame.ofWord W).checksum⟩ := by
        conv_lhs => rw [← Frame.word_ofWord W]
        rw [← hp]
      refine .inr (.inl ⟨_, _, ?_, hW, by rw [decodeWord, hl, if_pos hm]⟩)
      rcases hc : isCommandWord (Frame.ofWord W).payload (Frame.ofWord W).checksum with _ | _
      · rfl
      · have := lookup_of_isCommandWord _ _ hc
        rw [← hW, hl] at this
        nomatch this
    · exact .inr (.inr ⟨fun h => hm ((mask_eq_iff W).mpr h), by rw [decodeWord, hl, if_neg hm]⟩)
  · exact .inl ⟨i, lookup_mem _ hl, by rw [decodeWord, hl]⟩

/-- A decoded instruction is a well-formed frame word, and its encoding is the word it was decoded from. -/
theorem decodeWord_ok {W : Word24} {i : Instr} (h : decodeWord W = .ok i) :
    i.isFrameWord = true ∧ i.WellFormed ∧ encodeWord i = some W := by
  rcases decodeWord_cases W with ⟨j, hj, hd⟩ | ⟨p, c, hc, rfl, hd⟩ | ⟨_, hd⟩ <;> rw [hd] at h
  · rw [← Except.ok.inj h]; exact commandRows_spec _ hj
  · rw [← Except.ok.inj h]; exact ⟨rfl, by simp [Instr.WellFormed, Instr.formError, hc], rfl⟩
  · nomatch h

/-- What a byte sequence that decodes looks like. -/
theorem decode_cases {l : List Byte} {i : Instr} {r : List Byte} (h : decode l = .ok (i, r)) :
    ∃ a b c, l = a :: b :: c :: r ∧ decodeWord (Frame.word ⟨a, b, c⟩) = .ok i := by
  unfold decode at h
  split at h
  · split at h
    · rename_i a b c rest _ j hj
      obtain ⟨rfl, rfl⟩ := Prod.mk.inj (Except.ok.inj h)
      exact ⟨a, b, c, rfl, hj⟩
    · nomatch h
  all_goals nomatch h

/-- A captured instruction: the capture is complete, slots 0 to 23 exist, and their word decodes to it. -/
theorem captured_cases {s : State} {i : Instr} (h : capturedInstr s = some i) :
    s.cfg.frameThreshold ≤ s.rx.bitCount ∧ 24 ≤ s.rx.acc.length ∧
      decodeWord (assembleFrame (s.rx.acc.take 24)).word = .ok i := by
  unfold capturedInstr at h
  split at h
  · rename_i ht
    refine ⟨ht, ?_⟩
    by_cases hl : 24 ≤ s.rx.acc.length
    · refine ⟨hl, ?_⟩
      rw [capturedBytes, accRead_all hl] at h
      simp only [Option.map_some] at h
      split at h
      · rename_i j r hd
        obtain ⟨a, b, c, hl', hd'⟩ := decode_cases hd
        rw [← Option.some.inj h]
        simp only [Frame.bytes, List.cons.injEq] at hl'
        obtain ⟨rfl, rfl, rfl, _⟩ := hl'
        exact hd'
      · nomatch h
    · rw [capturedBytes, accRead_short (by omega)] at h
      nomatch h
  · nomatch h

end Sys2Proof
end

