-- ==== Sys2Proof/Laws/Codec.lean ====
section
/-! SUPPORT. Bits and bytes: the fields of a bit sequence are numbers below 256, serialising and assembling undo each
other, and the wire order of a word is the order of its frame's three fields (20_memory.md rules R62, R63). -/

namespace Sys2Proof.Machine

/-- The weighted sum of eight bits, most significant first. -/
theorem fieldAt_toNat (s : List Bit) (base : Nat) :
    (fieldAt s base).toNat = ∑ k ∈ Finset.range 8, (s.getD (base + k) false).toNat * 2 ^ (7 - k) := by
  have key : ∀ b0 b1 b2 b3 b4 b5 b6 b7 : Bool,
      (b0.toNat * 2 ^ 7 + (b1.toNat * 2 ^ 6 + (b2.toNat * 2 ^ 5 + (b3.toNat * 2 ^ 4 + (b4.toNat * 2 ^ 3 +
        (b5.toNat * 2 ^ 2 + (b6.toNat * 2 ^ 1 + b7.toNat * 2 ^ 0))))))) < 256 := by
    intro b0 b1 b2 b3 b4 b5 b6 b7
    have := Bool.toNat_le b0; have := Bool.toNat_le b1; have := Bool.toNat_le b2; have := Bool.toNat_le b3
    have := Bool.toNat_le b4; have := Bool.toNat_le b5; have := Bool.toNat_le b6; have := Bool.toNat_le b7
    omega
  have h8 : List.range 8 = [0, 1, 2, 3, 4, 5, 6, 7] := rfl
  simp only [fieldAt, h8, List.map_cons, List.map_nil, List.sum_cons, List.sum_nil, BitVec.toNat_ofNat,
    Finset.sum_range_succ, Finset.sum_range_zero, Nat.add_zero, Nat.zero_add]
  rw [Nat.mod_eq_of_lt (key _ _ _ _ _ _ _ _)]
  omega

/-- A field depends on its eight bits alone. -/
theorem fieldAt_congr {s u : List Bit} {m n : Nat} (h : ∀ k < 8, s.getD (m + k) false = u.getD (n + k) false) :
    fieldAt s m = fieldAt u n := by
  unfold fieldAt
  congr 2
  exact List.map_congr_left fun k hk => by rw [h k (List.mem_range.mp hk)]

/-- Bit `k` of a byte in time order. -/
theorem byteBits_get (b : Byte) {k : Nat} (h : k < 8) : (byteBits b)[k]? = some (b.getLsbD (7 - k)) := by
  simp [byteBits, h]

/-- Eight bits, read as a byte and serialised again. -/
theorem byteBits_fieldAt {s : List Bit} (h : s.length = 8) : byteBits (fieldAt s 0) = s := by
  have key : ∀ b0 b1 b2 b3 b4 b5 b6 b7 : Bool,
      byteBits (fieldAt [b0, b1, b2, b3, b4, b5, b6, b7] 0) = [b0, b1, b2, b3, b4, b5, b6, b7] := by decide
  match s, h with
  | [b0, b1, b2, b3, b4, b5, b6, b7], _ => exact key b0 b1 b2 b3 b4 b5 b6 b7

/-- The eight bits of a byte, read back. -/
theorem fieldAt_byteBits (b : Byte) : fieldAt (byteBits b) 0 = b := by
  have h := byteBits_fieldAt (byteBits_length b)
  apply BitVec.eq_of_getLsbD_eq
  intro k hk
  have := congrArg (fun l => l[7 - k]?) h
  simp only [byteBits_get _ (show 7 - k < 8 by omega), Option.some.injEq] at this
  rwa [show 7 - (7 - k) = k by omega] at this

/-- Assembling what TO_BITS serialised gives the frame, whatever follows the 24 bits. -/
theorem assembleFrame_frameToBits (F : Frame) (rest : List Bit) : assembleFrame (frameToBits F ++ rest) = F := by
  have h (b : Byte) (pre post : List Bit) : fieldAt (pre ++ byteBits b ++ post) pre.length = b := by
    conv_rhs => rw [← fieldAt_byteBits b]
    refine fieldAt_congr fun k hk => ?_
    simp only [List.getD_eq_getElem?_getD]
    congr 1
    rw [List.append_assoc, List.getElem?_append_right (by omega), List.getElem?_append_left (by simp; omega)]
    congr 1
    omega
  have h0 := h F.preamble [] (byteBits F.payload ++ byteBits F.checksum ++ rest)
  have h1 := h F.payload (byteBits F.preamble) (byteBits F.checksum ++ rest)
  have h2 := h F.checksum (byteBits F.preamble ++ byteBits F.payload) rest
  simp only [List.append_assoc, List.nil_append, List.length_append, byteBits_length, List.length_nil] at h0 h1 h2
  cases F
  simp only [assembleFrame, frameToBits, List.append_assoc, Frame.mk.injEq]
  exact ⟨h0, h1, h2⟩

/-- Serialising what was assembled from 24 bits gives the bits back. -/
theorem frameToBits_assembleFrame {s : List Bit} (h : s.length = 24) : frameToBits (assembleFrame s) = s := by
  have g (m : Nat) : fieldAt s m = fieldAt ((s.drop m).take 8) 0 :=
    fieldAt_congr fun k hk => by
      simp only [List.getD_eq_getElem?_getD, Nat.zero_add]
      rw [List.getElem?_take_of_lt hk, List.getElem?_drop]
  simp only [frameToBits, assembleFrame]
  rw [g 0, g 8, g 16, byteBits_fieldAt (by simp [h]), byteBits_fieldAt (by simp [h]), byteBits_fieldAt (by simp [h])]
  have e : (s.drop 16).take 8 = s.drop 16 := List.take_of_length_le (by simp [h])
  rw [e, List.drop_zero, List.append_assoc]
  have e2 : List.take 8 (s.drop 8) ++ s.drop 16 = s.drop 8 := by
    have := List.take_append_drop 8 (s.drop 8)
    rwa [List.drop_drop] at this
  rw [e2, List.take_append_drop]

/-- The wire order of a frame's word is TO_BITS of the frame (30_encoding.md rule R81). -/
theorem wireBits_word (F : Frame) : wireBits F.word = frameToBits F := by
  apply List.ext_getElem?
  intro k
  by_cases hk : k < 24
  · simp only [wireBits, wireBit, List.getElem?_map, List.getElem?_range hk, Option.map_some, Frame.word,
      BitVec.getLsbD_append, frameToBits]
    by_cases a : k < 8
    · rw [List.append_assoc, List.getElem?_append_left (by simpa), byteBits_get _ a]
      simp [show ¬ 23 - k < 8 by omega, show ¬ 23 - k - 8 < 8 by omega, show 23 - k - 8 - 8 = 7 - k by omega]
    · by_cases b : k < 16
      · rw [List.append_assoc, List.getElem?_append_right (by simpa using a),
          List.getElem?_append_left (by simp; omega), byteBits_length, byteBits_get _ (by omega)]
        simp [show ¬ 23 - k < 8 by omega, show 23 - k - 8 = 7 - (k - 8) by omega, show 7 - (k - 8) < 8 by omega]
      · rw [List.getElem?_append_right (by simp; omega)]
        simp only [List.length_append, byteBits_length]
        rw [byteBits_get _ (by omega)]
        simp [show 23 - k < 8 by omega, show 7 - (k - (8 + 8)) = 23 - k by omega]
  · rw [List.getElem?_eq_none (by simp; omega), List.getElem?_eq_none (by simp; omega)]

/-- A word's 24 bits in time order, assembled, are the word's three fields. -/
theorem assembleFrame_wireBits (W : Word24) (rest : List Bit) :
    assembleFrame (wireBits W ++ rest) = Frame.ofWord W := by
  conv_lhs => rw [← Frame.word_ofWord W, wireBits_word]
  exact assembleFrame_frameToBits _ _

end Sys2Proof.Machine
end

