-- ==== Sys2Proof/Laws/PerInstr.lean ====
section
/-! SUPPORT. The statements made instruction by instruction: the family Reencode. -/

namespace Sys2Proof.Laws.Reencode

/-- Whatever word decodes to this instruction, the instruction is a well-formed frame word and its encoding is that
word: no two words decode to one instruction, and no operation is decoded (30_encoding.md rules R80, R88, R93). -/
def Statement (i : Instr) : Prop :=
  ∀ W : Word24, decodeWord W = .ok i → i.isFrameWord = true ∧ i.WellFormed ∧ encodeWord i = some W

theorem frame (payload checksum : Byte) : Statement (.frame payload checksum) := fun _ h => decodeWord_ok h
theorem off : Statement (.off) := fun _ h => decodeWord_ok h
theorem on : Statement (.on) := fun _ h => decodeWord_ok h
theorem level2 : Statement (.level2) := fun _ h => decodeWord_ok h
theorem level3 : Statement (.level3) := fun _ h => decodeWord_ok h
theorem level4 : Statement (.level4) := fun _ h => decodeWord_ok h
theorem level5 : Statement (.level5) := fun _ h => decodeWord_ok h
theorem level6 : Statement (.level6) := fun _ h => decodeWord_ok h
theorem cmd7 : Statement (.cmd7) := fun _ h => decodeWord_ok h
theorem cmd8 : Statement (.cmd8) := fun _ h => decodeWord_ok h
theorem cmd9 : Statement (.cmd9) := fun _ h => decodeWord_ok h
theorem cmd10 : Statement (.cmd10) := fun _ h => decodeWord_ok h
theorem cmd11 : Statement (.cmd11) := fun _ h => decodeWord_ok h
theorem cmd12 : Statement (.cmd12) := fun _ h => decodeWord_ok h
theorem cmd13 : Statement (.cmd13) := fun _ h => decodeWord_ok h
theorem cmd14 : Statement (.cmd14) := fun _ h => decodeWord_ok h
theorem checksum (a b : Byte) : Statement (.checksum a b) := fun _ h => decodeWord_ok h
theorem encode (c : Nat) : Statement (.encode c) := fun _ h => decodeWord_ok h
theorem toBits (F : Frame) : Statement (.toBits F) := fun _ h => decodeWord_ok h
theorem fromBits (s : List Bit) : Statement (.fromBits s) := fun _ h => decodeWord_ok h
theorem timing (b : Nat) : Statement (.timing b) := fun _ h => decodeWord_ok h
theorem send (c : Nat) : Statement (.send c) := fun _ h => decodeWord_ok h
theorem txFrame (W : Word24) : Statement (.txFrame W) := fun _ h => decodeWord_ok h
theorem rxEdge (t : Nat) (d : Bit) : Statement (.rxEdge t d) := fun _ h => decodeWord_ok h
theorem rxEnable : Statement (.rxEnable) := fun _ h => decodeWord_ok h
theorem rxDisable : Statement (.rxDisable) := fun _ h => decodeWord_ok h
theorem asmPoll : Statement (.asmPoll) := fun _ h => decodeWord_ok h
theorem reset : Statement (.reset) := fun _ h => decodeWord_ok h

end Sys2Proof.Laws.Reencode
end

