-- ==== Sys2Proof/Laws/Step.lean ====
section
/-! SUPPORT. Which branch a step takes, one lemma each, and once what a step can do. -/

namespace Sys2Proof.Machine

theorem step_reset {s : State} {o : List Event} {rest : List Timed}
    (h : resetDue s.env.now s.env.script = some (o, rest)) :
    step s = exec .reset ((o.foldl applyLines s).withScript rest) := by
  simp only [step, h]

theorem step_edge {s : State} (h : resetDue s.env.now s.env.script = none) (he : edgeDue s = true) :
    step s =
      match detectEdge s with
      | (t, some d) => exec (.rxEdge t.env.now d) t
      | (t, none) => .next t := by
  unfold step; rw [h]; exact if_pos he

theorem step_tx {s : State} (h : resetDue s.env.now s.env.script = none) (he : edgeDue s = false)
    (ht : txDue s = true) : step s = .next (txStep s) := by
  unfold step; rw [h]; simp [he, ht]

theorem step_event {s : State} {e : Event} {rest : List Timed} {i : Instr} (h : OnlyEventsDue s)
    (hd : eventDue s.env.now s.env.script = some (e, rest)) (hi : eventInstr s e = some i) :
    step s = exec i (s.withScript rest) := by
  unfold step; rw [h.1]; simp [h.2.1, h.2.2, hd, hi]

theorem step_lines {s : State} {e : Event} {rest : List Timed} (h : OnlyEventsDue s)
    (hd : eventDue s.env.now s.env.script = some (e, rest)) (hi : eventInstr s e = none) :
    step s = .next (applyLines (s.withScript rest) e) := by
  unfold step; rw [h.1]; simp [h.2.1, h.2.2, hd, hi]

theorem step_passTime {s : State} (h : OnlyEventsDue s) (hd : eventDue s.env.now s.env.script = none) :
    step s = .next (passTime s) := by
  unfold step; rw [h.1]; simp [h.2.1, h.2.2, hd]

/-- Everything a step can be. -/
theorem step_cases (s : State) :
    (∃ o rest, resetDue s.env.now s.env.script = some (o, rest) ∧
      step s = exec .reset ((o.foldl applyLines s).withScript rest)) ∨
    (resetDue s.env.now s.env.script = none ∧ edgeDue s = true ∧
      ((∃ t d, detectEdge s = (t, some d) ∧ step s = exec (.rxEdge t.env.now d) t) ∨
       (∃ t, detectEdge s = (t, none) ∧ step s = .next t))) ∨
    (resetDue s.env.now s.env.script = none ∧ edgeDue s = false ∧ txDue s = true ∧ step s = .next (txStep s)) ∨
    (OnlyEventsDue s ∧ ∃ e rest, eventDue s.env.now s.env.script = some (e, rest) ∧
      ((∃ i, eventInstr s e = some i ∧ step s = exec i (s.withScript rest)) ∨
       (eventInstr s e = none ∧ step s = .next (applyLines (s.withScript rest) e)))) ∨
    (OnlyEventsDue s ∧ eventDue s.env.now s.env.script = none ∧ step s = .next (passTime s)) := by
  rcases hr : resetDue s.env.now s.env.script with _ | ⟨o, rest⟩
  · rcases he : edgeDue s with _ | _
    · rcases ht : txDue s with _ | _
      · rcases hd : eventDue s.env.now s.env.script with _ | ⟨e, rest⟩
        · exact .inr (.inr (.inr (.inr ⟨⟨hr, he, ht⟩, rfl, step_passTime ⟨hr, he, ht⟩ hd⟩)))
        · rcases hi : eventInstr s e with _ | i
          · exact .inr (.inr (.inr (.inl ⟨⟨hr, he, ht⟩, e, rest, rfl, .inr ⟨hi, step_lines ⟨hr, he, ht⟩ hd hi⟩⟩)))
          · exact .inr (.inr (.inr (.inl
              ⟨⟨hr, he, ht⟩, e, rest, rfl, .inl ⟨i, hi, step_event ⟨hr, he, ht⟩ hd hi⟩⟩)))
      · exact .inr (.inr (.inl ⟨rfl, rfl, rfl, step_tx hr he ht⟩))
    · rcases hd : detectEdge s with ⟨t, _ | d⟩
      · exact .inr (.inl ⟨rfl, rfl, .inr ⟨t, rfl, by rw [step_edge hr he, hd]⟩⟩)
      · exact .inr (.inl ⟨rfl, rfl, .inl ⟨t, d, rfl, by rw [step_edge hr he, hd]⟩⟩)
  · exact .inl ⟨o, rest, rfl, step_reset hr⟩

/-- An event that is due is the head of the script, and its time has come. -/
theorem eventDue_some {now : Nat} {script : List Timed} {e : Event} {rest : List Timed}
    (h : eventDue now script = some (e, rest)) : ∃ t, script = ⟨t, e⟩ :: rest ∧ t ≤ now := by
  cases script with
  | nil => nomatch h
  | cons a l =>
    simp only [eventDue] at h
    split at h
    · obtain ⟨rfl, rfl⟩ := Prod.mk.inj (Option.some.inj h)
      exact ⟨a.time, rfl, by assumption⟩
    · nomatch h

/-- The events after a due RESET are a tail of the script. -/
theorem resetDue_suffix {now : Nat} {script : List Timed} {o : List Event} {rest : List Timed}
    (h : resetDue now script = some (o, rest)) : ∀ e ∈ rest, e ∈ script := by
  induction script generalizing o with
  | nil => nomatch h
  | cons a l ih =>
    simp only [resetDue] at h
    split at h
    · split at h
      · obtain ⟨-, rfl⟩ := Prod.mk.inj (Option.some.inj h)
        exact fun e he => List.mem_cons_of_mem _ he
      · rcases hl : resetDue now l with _ | ⟨o', rest'⟩
        · rw [hl] at h; nomatch h
        · rw [hl] at h
          obtain ⟨-, rfl⟩ := Prod.mk.inj (Option.some.inj h)
          exact fun e he => List.mem_cons_of_mem _ (ih hl e he)
    · nomatch h

/-- Overridden events move at most the input lines. -/
theorem applyLines_frame (s : State) (e : Event) : ∃ c d m,
    applyLines s e = { s with env := { s.env with clockIn := c, dataIn := d, dataMoved := m } } ∧
      (m = s.env.dataMoved ∨ m = some s.env.now) := by
  cases e with
  | lines c d =>
    simp only [applyLines, setLines]
    split
    · exact ⟨c, d, _, rfl, by split <;> simp⟩
    · exact ⟨_, _, _, rfl, .inl rfl⟩
  | _ => exact ⟨_, _, _, rfl, .inl rfl⟩

/-- A RESET behind due events is found, with those events before it and the rest after it. -/
theorem resetDue_found {now t : Nat} {pre rest : List Timed}
    (hp : ∀ e ∈ pre, e.time ≤ now ∧ e.event ≠ .reset) (ht : t ≤ now) :
    resetDue now (pre ++ ⟨t, .reset⟩ :: rest) = some (pre.map (·.event), rest) := by
  induction pre with
  | nil => simp [resetDue, ht]
  | cons e l ih =>
    have := hp e List.mem_cons_self
    simp [resetDue, this.1, this.2, ih fun e he => hp e (List.mem_cons_of_mem _ he)]

/-- With no RESET to come none is due. -/
theorem resetDue_eq_none {now : Nat} : ∀ {l : List Timed}, (∀ e ∈ l, e.event ≠ .reset) → resetDue now l = none
  | [], _ => rfl
  | a :: l, h => by
    have h1 := h a List.mem_cons_self
    have h2 := resetDue_eq_none (now := now) (l := l) fun e he => h e (List.mem_cons_of_mem _ he)
    simp [resetDue, h1, h2]

/-- An event that is due while no RESET is asks for no RESET. -/
theorem eventInstr_ne_reset {s : State} {e : Event} {rest : List Timed} {i : Instr} (hr : resetDue s.env.now s.env.script = none)
   (he : eventDue s.env.now s.env.script = some (e, rest)) (hi : eventInstr s e = some i) : i ≠ .reset := by
  obtain ⟨τ, hs', hle⟩ := eventDue_some he
  rintro rfl
  cases e with
  | reset => rw [hs'] at hr; simp [resetDue, hle] at hr
  | asmPoll =>
    rcases hcap : capturedInstr s with _ | j
    · simp [eventInstr, hcap] at hi
    · simp [eventInstr, hcap] at hi; subst hi
      have := (decodeWord_ok (captured_cases hcap).2.2).1; nomatch this
  | _ => simp [eventInstr] at hi

/-- What the overridden events of a RESET's instant do: only line levels move. -/
theorem foldl_applyLines (o : List Event) (s : State) : ∃ c d m,
    o.foldl applyLines s = { s with env := { s.env with clockIn := c, dataIn := d, dataMoved := m } } ∧
      (m = s.env.dataMoved ∨ m = some s.env.now) := by
  induction o generalizing s with
  | nil => exact ⟨s.env.clockIn, s.env.dataIn, s.env.dataMoved, rfl, .inl rfl⟩
  | cons e l ih =>
    obtain ⟨c, d, m, h, hm⟩ := applyLines_frame s e
    obtain ⟨c', d', m', h', hm'⟩ := ih (applyLines s e)
    refine ⟨c', d', m', by rw [List.foldl_cons, h', h], ?_⟩
    rw [h] at hm'
    rcases hm' with rfl | rfl
    · exact hm
    · exact .inr rfl

theorem nextEventTime_gt {s : State} {a : Nat} (h : nextEventTime s = some a) : s.env.now < a := by
  unfold nextEventTime at h
  split at h
  · nomatch h
  · split at h
    · rwa [← Option.some.inj h]
    · nomatch h

theorem nextPhaseEnd_some {s : State} {b : Nat} (h : nextPhaseEnd s = some b) :
    s.tx.phase ≠ .idle ∧ b = s.tx.deadline ∧ s.env.now < b := by
  unfold nextPhaseEnd at h
  split at h
  · rename_i hc; rw [← Option.some.inj h]; exact ⟨hc.1, rfl, hc.2⟩
  · nomatch h

/-- The next instant is later than now. -/
theorem nextInstant_gt (s : State) : s.env.now < nextInstant s := by
  unfold nextInstant
  split
  · rename_i h1 h2; exact lt_min (nextEventTime_gt h1) (nextPhaseEnd_some h2).2.2
  · rename_i h1 _; exact nextEventTime_gt h1
  · rename_i _ h2; exact (nextPhaseEnd_some h2).2.2
  · exact Nat.lt_succ_self _

/-- The next instant does not pass a deadline that lies ahead. -/
theorem nextInstant_le_deadline {s : State} (h : s.tx.phase ≠ .idle) (hd : s.env.now < s.tx.deadline) :
    nextInstant s ≤ s.tx.deadline := by
  have hp : nextPhaseEnd s = some s.tx.deadline := by simp [nextPhaseEnd, h, hd]
  unfold nextInstant; rw [hp]
  rcases nextEventTime s with _ | a
  · exact Nat.le_refl _
  · exact min_le_right a _

/-- With no event to come, the next instant is the deadline that lies ahead. -/
theorem nextInstant_deadline {s : State} (hs : s.env.script = []) (h : s.tx.phase ≠ .idle)
    (hd : s.env.now < s.tx.deadline) : nextInstant s = s.tx.deadline := by
  have hp : nextPhaseEnd s = some s.tx.deadline := by simp [nextPhaseEnd, h, hd]
  have he : nextEventTime s = none := by unfold nextEventTime; rw [hs]
  unfold nextInstant; rw [hp, he]

end Sys2Proof.Machine
end

