-- ==== Sys2Proof/Tests/Slice0.lean ====
section
/-! SUPPORT. The model's own tests: each check of WellFormed refuses an ill-formed term; each frame word decodes as the
table of 30_encoding.md rule R88 prints it; one-step vectors of 95_test_vectors.md (V<n>); and, for every obligation
with hypotheses, a witness that meets them. -/

namespace Sys2Proof.Tests

open Sys2Proof Sys2Proof.Machine

/-- The state an outcome goes on in, if it does: outcomes have no decidable equality, states have. -/
def nextOf : Host.Outcome State Fault Refusal → Option State
  | .next t => some t
  | .fault _ => none
  | .refused _ => none

theorem next_iff (o : Host.Outcome State Fault Refusal) (t : State) : o = .next t ↔ nextOf o = some t := by
  cases o <;> simp [nextOf]

/-! ## WellFormed -/

theorem test_frame_of_a_command_word_is_refused :
    (Instr.frame 0x01 0x56).formError = some .frameIsCommandWord := by decide

theorem test_short_fromBits_is_refused :
    (Instr.fromBits (List.replicate 23 true)).formError = some .fromBitsTooShort := by decide

theorem test_timing_zero_is_refused : (Instr.timing 0).formError = some .timingOfBaudZero := by decide

theorem test_wellFormed_neighbours : (Instr.frame 0x01 0x57).WellFormed ∧ (Instr.frame 0x0F 0x64).WellFormed ∧
    (Instr.fromBits (List.replicate 24 true)).WellFormed ∧ (Instr.timing 1).WellFormed := by decide

theorem test_default_config_is_admitted : Config.default.wf := by decide

/-! ## Decoding: the bits of each word in time order, three bytes (rule R88's table, rule R81) -/

theorem test_decode_frame : decode [0b01010101, 0b11111111, 0b01010100] = .ok (.frame 0xFF 0x54, []) := by decide
theorem test_decode_frame_bad_checksum :
    decode [0b01010101, 0b00000001, 0b01010111] = .ok (.frame 0x01 0x57, []) := by decide
theorem test_decode_off : decode [0b01010101, 0b00000000, 0b01010101] = .ok (.off, []) := by decide
theorem test_decode_on : decode [0b01010101, 0b00000001, 0b01010110] = .ok (.on, []) := by decide
theorem test_decode_level2 : decode [0b01010101, 0b00000010, 0b01010111] = .ok (.level2, []) := by decide
theorem test_decode_level3 : decode [0b01010101, 0b00000011, 0b01011000] = .ok (.level3, []) := by decide
theorem test_decode_level4 : decode [0b01010101, 0b00000100, 0b01011001] = .ok (.level4, []) := by decide
theorem test_decode_level5 : decode [0b01010101, 0b00000101, 0b01011010] = .ok (.level5, []) := by decide
theorem test_decode_level6 : decode [0b01010101, 0b00000110, 0b01011011] = .ok (.level6, []) := by decide
theorem test_decode_cmd7 : decode [0b01010101, 0b00000111, 0b01011100] = .ok (.cmd7, []) := by decide
theorem test_decode_cmd8 : decode [0b01010101, 0b00001000, 0b01011101] = .ok (.cmd8, []) := by decide
theorem test_decode_cmd9 : decode [0b01010101, 0b00001001, 0b01011110] = .ok (.cmd9, []) := by decide
theorem test_decode_cmd10 : decode [0b01010101, 0b00001010, 0b01011111] = .ok (.cmd10, []) := by decide
theorem test_decode_cmd11 : decode [0b01010101, 0b00001011, 0b01100000] = .ok (.cmd11, []) := by decide
theorem test_decode_cmd12 : decode [0b01010101, 0b00001100, 0b01100001] = .ok (.cmd12, []) := by decide
theorem test_decode_cmd13 : decode [0b01010101, 0b00001101, 0b01100010] = .ok (.cmd13, []) := by decide
theorem test_decode_cmd14 : decode [0b01010101, 0b00001110, 0b01100011] = .ok (.cmd14, []) := by decide
theorem test_decode_rejects : decode [0x54, 0x02, 0x56] = .error .notTransmitPreamble ∧
    decode [0x55, 0x01] = .error .tooShort ∧ decode [] = .error .tooShort := by decide

/-- Placed words run as the first instruction after reset: the frame of payload 14 is delivered. -/
theorem test_placed_word_runs :
    nextOf (step (State.reset.withFetchWord 24 0x550E63)) =
        nextOf (exec .cmd14 ((State.reset.withFetchWord 24 0x550E63).withScript [])) ∧
      decodeTableWord 24 0x550E63 = some .cmd14 := by decide

/-! ## Small states -/

/-- Bits from their pattern, first in time first. -/
def bits (n w : Nat) : List Bit := ((List.range n).map fun k => w.testBit k).reverse

/-- The reset state with the receiver enabled, and this count and time of the last edge. -/
def listening (count last : Nat) : State :=
  { State.reset with rx := { State.reset.rx with rxEnabled := true, bitCount := count, lastEdgeTime := last } }

/-- A capture of this word, with this count. -/
def captured (W : Word24) (count : Nat) : State :=
  { State.reset with rx := { State.reset.rx with acc := placeCapture W State.reset.rx.acc, bitCount := count } }

/-- The frame `on` in flight, started at time 0, in this phase of this bit, with this deadline and these lines. -/
def sending (phase : TxPhase) (bit deadline now : Nat) (c d : Bit) : State :=
  { State.reset with tx := ⟨0x550156, true, phase, bit, deadline, c, d⟩, env := { State.reset.env with now := now } }

/-- The reset state with these events to come. -/
def scripted (script : List Timed) : State := { State.reset with env := { State.reset.env with script := script } }

/-- The reset state with these parameters. -/
def configured (baud cap thr : Nat) (w : Wiring) : State :=
  State.resetFor { Config.default with baud := baud, accCapacity := cap, frameThreshold := thr, wiring := w }

/-- The receiver enabled and the clock line just risen, with this data level. -/
def rising (d : Bit) (moved : Option Nat) : State :=
  { listening 0 0 with env := { State.reset.env with now := 7, clockIn := true, dataIn := d, dataMoved := moved } }

/-! ## One step of each operation -/

/-- V7: 0x55 + 0xFF, carry discarded. -/
theorem test_checksum : exec (.checksum 0x55 0xFF) State.reset = .next { State.reset with result := .byte 0x54 } := by
  simp only [next_iff]; decide

/-- V8. -/
theorem test_encode : exec (.encode 14) State.reset =
      .next { State.reset with result := .encode (.ok ⟨0x55, 0x0E, 0x63⟩) } ∧
    exec (.encode 15) State.reset = .next { State.reset with result := .encode (.unknownCommandError 15) } := by
  simp only [next_iff]; decide

/-- V9: bit 7 of the preamble first, bit 0 of the checksum last. -/
theorem test_toBits : exec (.toBits ⟨0x80, 0x00, 0x01⟩) State.reset =
    .next { State.reset with result := .bits (bits 24 0x800001) } := by
  simp only [next_iff]; decide

/-- V10: another preamble than 0x55 is accepted. -/
theorem test_fromBits_any_preamble : exec (.fromBits (bits 24 0x540256)) State.reset =
    .next { State.reset with result := .decode (.ok ⟨0x54, 0x02, 0x56⟩) } := by
  simp only [next_iff]; decide

/-- V10: a bit beyond the 24th is ignored; a wrong checksum is reported. -/
theorem test_fromBits_tail_and_mismatch :
    exec (.fromBits (bits 24 0x550156 ++ [true])) State.reset =
      .next { State.reset with result := .decode (.ok ⟨0x55, 0x01, 0x56⟩) } ∧
    exec (.fromBits (bits 24 0x550157)) State.reset = .next { State.reset with result := .decode .checksumMismatch } := by
  simp only [next_iff]; decide

/-- V3, V14. -/
theorem test_timing : exec (.timing 600) State.reset =
      .next { State.reset with result := .timing ⟨1666, 833, 9996⟩ } ∧
    exec (.timing 3) State.reset = .next { State.reset with result := .timing ⟨333333, 166666, 1999998⟩ } := by
  simp only [next_iff]; decide

/-- V16, the first line. -/
theorem test_txFrame : exec (.txFrame 0x550156) State.reset =
    .next { sending .porch 0 9996 0 false false with result := .send .started } := by
  simp only [next_iff]; decide

/-- V18: the table is consulted first. -/
theorem test_send_while_busy :
    exec (.send 2) (sending .high 1 12795 12000 true true) =
      .next { sending .high 1 12795 12000 true true with result := .send .busy } ∧
    exec (.send 15) (sending .high 1 12795 12000 true true) =
      .next { sending .high 1 12795 12000 true true with
        pulses := ⟨true, false, false⟩, result := .send (.unknownCommandError 15) } := by
  simp only [next_iff]; decide

/-- V19: the SETUP step of bit 1, and the last step of the frame. -/
theorem test_txStep :
    step (sending .setup 1 11962 11962 false true) = .next (sending .high 1 12795 11962 true true) ∧
    (txStep (sending .low 23 54780 54780 false false)).tx = ⟨0x550156, false, .idle, 23, 54780, true, true⟩ := by
  simp only [next_iff]; decide

/-- V25: a gap of exactly the threshold does not resynchronise, one more does. -/
theorem test_rxEdge_silence :
    exec (.rxEdge 117794 true) (listening 10 17794) =
      .next { listening 11 117794 with
        rx := { (listening 11 117794).rx with acc := (List.replicate 25 false).set 10 true, statusLed := true }
        result := .edge (.stored 10 true) } ∧
    exec (.rxEdge 117795 true) (listening 10 17794) =
      .next { listening 1 117795 with
        rx := { (listening 1 117795).rx with acc := (List.replicate 25 false).set 0 true, statusLed := true }
        result := .edge (.stored 0 true) } := by
  simp only [next_iff]; decide +kernel

/-- V28: the 26th sample is dropped and still counted. -/
theorem test_rxEdge_dropped : exec (.rxEdge 51650 true) (listening 25 49784) =
    .next { listening 26 51650 with
      rx := { (listening 26 51650).rx with statusLed := true }, result := .edge (.dropped 25) } := by
  simp only [next_iff]; decide +kernel

/-- V30: enabling with the clock high makes no edge. -/
theorem test_rxEnable_high :
    exec .rxEnable { State.reset with env := { State.reset.env with clockIn := true } } =
      .next { State.reset with
        rx := { State.reset.rx with rxEnabled := true, cinPrev := true }
        env := { State.reset.env with clockIn := true } } := by
  simp only [next_iff]; decide

theorem test_rxDisable : exec .rxDisable (listening 10 5) =
    .next { listening 10 5 with rx := { (listening 10 5).rx with rxEnabled := false } } := by
  simp only [next_iff]; decide

/-- V33: a count above the threshold is consumed; V35: a false acceptance. -/
theorem test_asmPoll :
    exec .asmPoll (captured 0x550E63 40) =
      .next { captured 0x550E63 0 with
        latch := ⟨0x0E, .ok⟩, pulses := ⟨false, true, false⟩, result := .poll (.decoded ⟨0x55, 0x0E, 0x63⟩) } ∧
    exec .asmPoll (captured 0xAA812B 24) =
      .next { captured 0xAA812B 0 with
        latch := ⟨0x81, .ok⟩, pulses := ⟨false, true, false⟩, result := .poll (.decoded ⟨0xAA, 0x81, 0x2B⟩) } := by
  simp only [next_iff]; decide

/-- Rule R40: every register returns to its reset value. -/
theorem test_reset : exec .reset (sending .high 1 12795 12000 true true) = .next State.reset := by
  simp only [next_iff]; decide

/-- V2, delivered and discarded. -/
theorem test_frame_words :
    exec (.frame 0xFF 0x54) (captured 0x55FF54 24) =
      .next { captured 0x55FF54 0 with
        latch := ⟨0xFF, .ok⟩, pulses := ⟨false, true, false⟩, result := .poll (.decoded ⟨0x55, 0xFF, 0x54⟩) } ∧
    exec (.frame 0xFF 0x55) (captured 0x55FF55 24) =
      .next { captured 0x55FF55 0 with
        latch := ⟨0, .bad⟩, pulses := ⟨false, false, true⟩, result := .poll .decodeFailure } := by
  simp only [next_iff]; decide

/-- The input ports: a poll strobe, RESET alone while `rst` is 1, and two clocks, the first with `rst` (rules R207,
R220). -/
theorem test_ports :
    InPorts.events 5 ⟨false, true, false, true, 2, false, false, true⟩ =
      [⟨5, .lines true false⟩, ⟨5, .send 2⟩, ⟨5, .asmPoll⟩] ∧
    InPorts.events 5 ⟨true, true, false, true, 2, false, false, true⟩ = [⟨5, .lines true false⟩, ⟨5, .reset⟩] ∧
    InPorts.trace 5 [⟨true, true, false, false, 0, false, false, false⟩, ⟨false, true, false, false, 0, true, false, true⟩] =
      [⟨5, .lines true false⟩, ⟨5, .reset⟩, ⟨0, .lines true false⟩, ⟨0, .rxEnable⟩, ⟨0, .asmPoll⟩] := by decide

/-- The output ports (rule R207): with `poll` at 1, tx_unknown stays up through the poll of the clock of its SEND, and is
down on the next clock. -/
theorem test_pulse_lasts_its_clock :
    ((nextOf (step { scripted [⟨0, .asmPoll⟩] with pulses := ⟨true, false, false⟩ })).map fun t =>
      ((outPorts t).txUnknown, t.result)) = some (true, .poll .noFrame) ∧
    ((nextOf (step { scripted [⟨1, .asmPoll⟩] with pulses := ⟨true, false, false⟩ })).map fun t =>
      ((outPorts t).txUnknown, t.env.now)) = some (false, 1) ∧
    (outPorts { State.reset with latch := ⟨1, .bad⟩ }).rxStatus = 2 := by decide

/-! ## Witnesses -/

theorem witness_DecodeInvertsEncode :
    Instr.on.WellFormed ∧ encode .on = some [0x55, 0x01, 0x56] ∧ (Instr.frame 0xFF 0x00).WellFormed ∧
      encode (.frame 0xFF 0x00) = some [0x55, 0xFF, 0x00] ∧ Instr.cmd14.isFrameWord = true ∧
      Instr.asmPoll.isFrameWord = false := by decide

theorem witness_StepRunsTheNextEvent :
    OnlyEventsDue (scripted [⟨0, .send 1⟩]) ∧ (scripted [⟨0, .send 1⟩]).env.script = ⟨0, .send 1⟩ :: [] ∧
      0 ≤ (scripted [⟨0, .send 1⟩]).env.now ∧ eventInstr (scripted [⟨0, .send 1⟩]) (.send 1) = some (.send 1) := by
  decide

theorem witness_PollStepRunsTheCapturedWord :
    let s := { captured 0x550E63 24 with env := { State.reset.env with script := [⟨0, .asmPoll⟩] } }
    OnlyEventsDue s ∧ s.env.script = ⟨0, .asmPoll⟩ :: [] ∧ 0 ≤ s.env.now ∧ s.cfg.frameThreshold ≤ s.rx.bitCount ∧
      capturedBytes s.rx.acc = some [0x55, 0x0E, 0x63] ∧ decode [0x55, 0x0E, 0x63] = .ok (.cmd14, []) := by decide

theorem witness_CapturedWordActsAsPoll :
    capturedInstr (captured 0x550E63 24) = some .cmd14 ∧
      capturedInstr (captured 0x55FF55 25) = some (.frame 0xFF 0x55) := by decide

theorem witness_PlacedWordRunsNext :
    decodeTableWord 24 0x550055 = some .off ∧ decodeTableWord 24 0x55FFFF = some (.frame 0xFF 0xFF) := by decide

theorem witness_RisingEdgeStepSamplesTheLine :
    let s := rising true (some 6)
    resetDue s.env.now s.env.script = none ∧ s.rx.rxEnabled = true ∧ s.rx.cinPrev = false ∧ levelClockIn s = true ∧
      s.env.dataMoved ≠ some s.env.now ∧ zeroWidthPulse s = false := by decide

theorem witness_UndeterminedSampleIsSomeLevel :
    let s := rising true (some 7)
    resetDue s.env.now s.env.script = none ∧ s.rx.rxEnabled = true ∧ s.rx.cinPrev = false ∧ levelClockIn s = true ∧
      s.env.dataMoved = some s.env.now ∧ zeroWidthPulse s = false := by decide

theorem witness_OtherClockMoves_falling :
    let s := { listening 0 0 with rx := { (listening 0 0).rx with cinPrev := true } }
    resetDue s.env.now s.env.script = none ∧ s.rx.cinPrev ≠ levelClockIn s ∧ levelClockIn s = false := by decide

theorem witness_OtherClockMoves_disabled :
    let s := { State.reset with env := { State.reset.env with clockIn := true } }
    resetDue s.env.now s.env.script = none ∧ s.rx.cinPrev ≠ levelClockIn s ∧ s.rx.rxEnabled = false := by decide

theorem witness_TxStepIsTakenAtTheDeadline :
    let s := sending .setup 1 11962 11962 false true
    resetDue s.env.now s.env.script = none ∧ edgeDue s = false ∧ s.tx.phase ≠ .idle ∧ s.env.now = s.tx.deadline := by
  decide

theorem witness_ResetOverridesItsInstant :
    let pre : List Timed := [⟨0, .lines true true⟩, ⟨0, .send 1⟩]
    let s := scripted (pre ++ ⟨0, .reset⟩ :: [⟨9, .asmPoll⟩])
    1 ≤ s.cfg.baud ∧ s.env.script = pre ++ ⟨0, .reset⟩ :: [⟨9, .asmPoll⟩] ∧
      (∀ e ∈ pre, e.time ≤ s.env.now ∧ e.event ≠ .reset) ∧ 0 ≤ s.env.now := by decide

/-- Time passes to the next event. -/
theorem witness_TimePassesOnlyWhenNothingIsDue :
    let s := scripted [⟨9, .asmPoll⟩]
    resetDue s.env.now s.env.script = none ∧ step s = .next { s with env := { s.env with now := 9 } } ∧
      s.env.now < 9 := by
  simp only [next_iff]; decide

theorem witness_LineEventSetsTheLevels :
    let s := scripted [⟨0, .lines true true⟩]
    OnlyEventsDue s ∧ s.cfg.wiring = .separate ∧ s.env.script = ⟨0, .lines true true⟩ :: [] ∧ 0 ≤ s.env.now := by decide

theorem witness_EncodeReturnsTheTableFrame :
    State.reset.cfg.cmdTable[0]? = some 0x00 ∧ State.reset.cfg.cmdTable[14]? = some 0x0E := by decide

/-- Both clauses: the first identifier outside the table, and an instruction that reports an error. -/
theorem witness_UnknownCommandIsReported :
    State.reset.cfg.cmdTable.length ≤ 15 ∧
      exec (.send 15) State.reset =
        .next { State.reset with pulses := ⟨true, false, false⟩, result := .send (.unknownCommandError 15) } ∧
      (OpResult.send (.unknownCommandError 15)).error? = some (.unknownCommandError 15) ∧
      exec (.fromBits (bits 24 0x550157)) State.reset =
        .next { State.reset with result := .decode .checksumMismatch } ∧
      (OpResult.decode .checksumMismatch).error? = some .checksumMismatch := by
  simp only [next_iff]; decide

theorem witness_ToBitsSerialisesMsbFirst : (0 < 8 ∧ 7 < 8) ∧ (0 < 24 ∧ 23 < 24) := by decide

theorem witness_FromBitsAssemblesAndChecks : 24 ≤ (bits 24 0x550156).length ∧ 24 ≤ (bits 25 0xAAAAAA).length := by
  decide

theorem witness_ShortSequencesAndBaudZero :
    (bits 23 0).length < 24 ∧ ([] : List Bit).length < 24 ∧ (configured 0 25 24 .separate).cfg.baud = 0 := by decide

theorem witness_CodecRoundTrip :
    ((0x56 : Byte).toNat = ((0x55 : Byte).toNat + (0x01 : Byte).toNat) % 256 ∧
      exec (.toBits ⟨0x55, 0x01, 0x56⟩) State.reset = .next { State.reset with result := .bits (bits 24 0x550156) }) ∧
    ((bits 24 0x55FF54).length = 24 ∧ exec (.fromBits (bits 24 0x55FF54)) State.reset =
      .next { State.reset with result := .decode (.ok ⟨0x55, 0xFF, 0x54⟩) }) := by
  simp only [next_iff]; decide

/-- V11, the first and the last bit. -/
theorem witness_EverySingleBitErrorIsDetected :
    (bits 24 0x550156).length = 24 ∧ (bits 24 0x550156)[0]? = some false ∧ (bits 24 0x550156)[23]? = some false ∧
      exec (.fromBits (bits 24 0x550156)) State.reset =
        .next { State.reset with result := .decode (.ok ⟨0x55, 0x01, 0x56⟩) } := by
  simp only [next_iff]; decide

theorem witness_CaptureOneLate :
    ((14 : Byte).toNat ≤ 14 ∧ (14 : Byte).toNat % 2 = 0) ∧ ((13 : Byte).toNat ≤ 14 ∧ (13 : Byte).toNat % 2 = 1) ∧
      ((0 : Byte).toNat ≤ 14 ∧ (0 : Byte).toNat % 2 = 0) := by decide

theorem witness_TimingReturnsTheProfile : 1 ≤ 1 ∧ 1 ≤ 600 := by decide

/-- V14: the pairs around each bound. -/
theorem witness_UsableBaudBounds :
    timingOf 10 = ⟨100000, 50000, 600000⟩ ∧ timingOf 11 = ⟨90909, 45454, 545454⟩ ∧
      timingOf 60 = ⟨16666, 8333, 99996⟩ ∧ timingOf 61 = ⟨16393, 8196, 98358⟩ ∧
      timingOf 5000 = ⟨200, 100, 1200⟩ ∧ timingOf 5001 = ⟨199, 99, 1194⟩ ∧
      timingOf 500000 = ⟨2, 1, 12⟩ ∧ timingOf 500001 = ⟨1, 0, 6⟩ := by decide

theorem witness_TxFrameStartsWhenFree : State.reset.tx.busy = false := by decide

theorem witness_SendStartsTheTableFrame :
    State.reset.tx.busy = false ∧ State.reset.cfg.cmdTable[14]? = some 0x0E := by decide

theorem witness_RequestWhileBusyIsDropped :
    (sending .porch 0 9996 5000 false false).tx.busy = true ∧
      14 < (sending .porch 0 9996 5000 false false).cfg.cmdTable.length := by decide

theorem witness_OnlyResetDisturbsAFrameInFlight :
    let s := sending .porch 0 9996 5000 false false
    s.tx.busy = true ∧ Instr.txFrame 0x550257 ≠ .reset ∧
      exec (.txFrame 0x550257) s = .next { s with result := .send .busy } := by
  simp only [next_iff]; decide

theorem witness_WaveformFollowsTheSchedule :
    State.reset.tx.busy = false ∧ exec (.txFrame 0x550156) State.reset =
      .next { sending .porch 0 9996 0 false false with result := .send .started } ∧ 0 < 24 ∧ 23 < 24 := by
  simp only [next_iff]; decide

theorem witness_UndisturbedFrameEndsInTheRestState :
    State.reset.Inv ∧ State.reset.tx.busy = false ∧ State.reset.cfg.wiring = .separate ∧ State.reset.env.script = [] ∧
      State.reset.rx.cinPrev = State.reset.env.clockIn ∧ exec (.txFrame 0x550156) State.reset =
        .next { sending .porch 0 9996 0 false false with result := .send .started } := by
  simp only [next_iff]; decide

/-- The usable bauds at both ends, in loopback. -/
theorem witness_LoopbackCapturesTheWord : ∀ b ∈ [11, 500000],
    let r := configured b 25 24 .loopback
    let s := { r with rx := { r.rx with rxEnabled := true } }
    s.Inv ∧ s.tx.busy = false ∧ s.cfg.wiring = .loopback ∧ s.env.script = [] ∧ s.rx.rxEnabled = true ∧
      s.rx.bitCount = 0 ∧ s.rx.cinPrev = s.tx.clockOut ∧ 11 ≤ s.cfg.baud ∧ s.cfg.baud ≤ 500000 ∧
      exec (.txFrame 0x550156) s = .next ((startFrame 0x550156 s).returning (.send .started)) := by
  simp only [next_iff]; decide

theorem witness_DisabledEdgeIsIgnored : State.reset.rx.rxEnabled = false := by decide

/-- Both sides of the silence test and of the store test. -/
theorem witness_EnabledEdgeIsSampled :
    (listening 10 17794).rx.rxEnabled = true ∧
      (10 = if 117794 > (listening 10 17794).rx.lastEdgeTime + 100000 then 0 else (listening 10 17794).rx.bitCount) ∧
      (0 = if 117795 > (listening 10 17794).rx.lastEdgeTime + 100000 then 0 else (listening 10 17794).rx.bitCount) ∧
      (25 = if 51650 > (listening 25 49784).rx.lastEdgeTime + 100000 then 0 else (listening 25 49784).rx.bitCount) := by
  decide

theorem witness_TimestampIsAlwaysTaken : (listening 0 0).rx.rxEnabled = true := by decide

theorem witness_SampleBeyondCapacityIsDropped :
    let s24 := { configured 600 24 24 .separate with rx := { (listening 24 47918).rx with acc := bits 24 0 } }
    (listening 24 47918).rx.rxEnabled = true ∧ 49784 ≤ (listening 24 47918).rx.lastEdgeTime + 100000 ∧
      (listening 24 47918).rx.bitCount < (listening 24 47918).cfg.accCapacity ∧
      (listening 25 47918).cfg.accCapacity ≤ (listening 25 47918).rx.bitCount ∧
      (listening 24 47918).cfg.accCapacity = 25 ∧ (listening 24 47918).rx.bitCount = 24 ∧
      (listening 25 47918).rx.bitCount = 25 ∧ s24.rx.rxEnabled = true ∧ s24.cfg.accCapacity = 24 ∧
      s24.rx.bitCount = 24 ∧ 49784 ≤ s24.rx.lastEdgeTime + 100000 := by decide

/-- Clauses two and three: a slot that is not the sampled one, and one past the capacity. -/
theorem witness_EdgeWritesAtMostItsSlot :
    exec (.rxEdge 5 true) (listening 0 0) =
      .next { listening 1 5 with
        rx := { (listening 1 5).rx with acc := (List.replicate 25 false).set 0 true, statusLed := true }
        result := .edge (.stored 0 true) } ∧
    1 ≠ resyncedCount 5 (listening 0 0).rx ∧ (listening 0 0).cfg.accCapacity ≤ 25 := by
  simp only [next_iff]; decide +kernel

/-- From count 0 with gaps of exactly the threshold, and from a count after a gap of one more. -/
theorem witness_EdgesFillTheAccumulatorInOrder :
    (let edges : List (Nat × Bit) := [(100000, true), (200000, false), (200001, true)]
      let s := listening 0 0;
      s.rx.rxEnabled = true ∧ startsCapture s.rx (edges.map Prod.fst) = true ∧ Memory.wf s.cfg.accCapacity s.rx.acc ∧
        gapless (edges.map Prod.fst) = true ∧ 2 < min edges.length s.cfg.accCapacity ∧ 3 ≥ edges.length) ∧
    (let edges : List (Nat × Bit) := [(117795, true), (217795, false)]
      let s := listening 10 17794;
      s.rx.rxEnabled = true ∧ startsCapture s.rx (edges.map Prod.fst) = true ∧ Memory.wf s.cfg.accCapacity s.rx.acc ∧
        gapless (edges.map Prod.fst) = true ∧ 1 < min edges.length s.cfg.accCapacity ∧ 2 ≥ edges.length) := by decide

theorem witness_IncompleteCaptureIsNoFrame :
    (captured 0x550156 23).rx.bitCount < (captured 0x550156 23).cfg.frameThreshold := by decide

theorem witness_CompleteCaptureIsConsumed :
    (captured 0x550156 24).cfg.frameThreshold ≤ (captured 0x550156 24).rx.bitCount ∧
      24 ≤ (captured 0x550156 24).rx.acc.length := by decide

/-- Threshold 24 with the 24 bits alone, and threshold 25 with the rest edge's sample behind them. -/
theorem witness_SentFrameIsReceived : ∀ w ∈ [(24, []), (25, [true])],
    let F : Frame := ⟨0x55, 0x01, 0x56⟩
    let r := configured 600 25 w.1 .separate
    let s := { r with rx := { r.rx with rxEnabled := true } }
    let edges : List (Nat × Bit) := (frameToBits F ++ w.2).zipIdx.map fun p => (10096 + 1866 * p.2, p.1)
    s.rx.rxEnabled = true ∧ startsCapture s.rx (edges.map Prod.fst) = true ∧ Memory.wf s.cfg.accCapacity s.rx.acc ∧
      24 ≤ s.cfg.accCapacity ∧ s.cfg.frameThreshold ≤ edges.length ∧ gapless (edges.map Prod.fst) = true ∧
      F.checksum.toNat = (F.preamble.toNat + F.payload.toNat) % 256 ∧ edges.map Prod.snd = frameToBits F ++ w.2 := by
  decide

theorem witness_StuckLowLineDeliversZero :
    (captured 0 24).cfg.frameThreshold ≤ (captured 0 24).rx.bitCount ∧
      (captured 0 24).rx.acc.take 24 = List.replicate 24 false ∧
      (captured 0xFFFFFF 24).cfg.frameThreshold ≤ (captured 0xFFFFFF 24).rx.bitCount ∧
      (captured 0xFFFFFF 24).rx.acc.take 24 = List.replicate 24 true := by decide

theorem witness_CommandWordsDeliverTheirPayload :
    let rows : List (Instr × Byte × Byte) :=
      [(.off, 0x00, 0x55), (.on, 0x01, 0x56), (.level2, 0x02, 0x57), (.level3, 0x03, 0x58), (.level4, 0x04, 0x59),
       (.level5, 0x05, 0x5A), (.level6, 0x06, 0x5B), (.cmd7, 0x07, 0x5C), (.cmd8, 0x08, 0x5D), (.cmd9, 0x09, 0x5E),
       (.cmd10, 0x0A, 0x5F), (.cmd11, 0x0B, 0x60), (.cmd12, 0x0C, 0x61), (.cmd13, 0x0D, 0x62), (.cmd14, 0x0E, 0x63)]
    (.off, 0x00, 0x55) ∈ rows ∧ (.cmd14, 0x0E, 0x63) ∈ rows := by decide

theorem witness_FrameWordIsDeliveredOrDiscarded :
    (0x54 : Byte).toNat = (0x55 + (0xFF : Byte).toNat) % 256 ∧
      (0x55 : Byte).toNat ≠ (0x55 + (0xFF : Byte).toNat) % 256 := by decide

theorem witness_ResetGivesEveryRegisterItsValue : 1 ≤ (configured 1 24 24 .separate).cfg.baud := by decide

theorem witness_StepKeepsGoodStates :
    (scripted [⟨9, .asmPoll⟩]).Inv ∧ step (scripted [⟨9, .asmPoll⟩]) =
      .next { scripted [⟨9, .asmPoll⟩] with env := { (scripted [⟨9, .asmPoll⟩]).env with now := 9 } } := by
  simp only [next_iff]; decide

theorem witness_GoodStatesNeverStop : (sending .setup 1 11962 11962 false true).Inv := by decide

theorem witness_ParametersAndProfileAreNeverWritten :
    exec .rxDisable State.reset = .next State.reset ∧ step State.reset =
      .next { State.reset with env := { State.reset.env with now := 1 } } ∧
      exec .reset (listening 3 5) = .next State.reset := by
  simp only [next_iff]; decide

/-- The four clauses: an edge is not RX_ENABLE, a poll is neither, RX_DISABLE is no frame word, and a poll is no SEND. -/
theorem witness_EachRegisterHasItsWriters :
    (Instr.asmPoll ≠ .reset ∧ exec .asmPoll State.reset = .next { State.reset with result := .poll .noFrame }) ∧
      (Instr.rxDisable ≠ .reset ∧ Instr.rxDisable ≠ .rxEnable ∧ Instr.rxDisable ≠ .asmPoll ∧
        Instr.rxDisable.isFrameWord = false ∧ exec .rxDisable State.reset = .next State.reset) := by
  simp only [next_iff]; decide

/-- A receive operation in two states that differ in the transmitter. -/
theorem witness_ReceiveSideIgnoresTheTransmitter :
    let s := captured 0x550E63 24
    let s' := { s with tx := ⟨0x550156, true, .porch, 0, 9996, false, false⟩ }
    s'.cfg = s.cfg ∧ s'.rx = s.rx ∧ s'.latch = s.latch ∧
      exec .asmPoll s =
        .next { captured 0x550E63 0 with
        latch := ⟨0x0E, .ok⟩, pulses := ⟨false, true, false⟩, result := .poll (.decoded ⟨0x55, 0x0E, 0x63⟩) } := by
  simp only [next_iff]; decide

/-- In loopback, with a busy request and a poll to come. -/
theorem witness_FrameReachesTheRestStateWhateverHappens :
    let r := configured 600 25 24 .loopback
    let s := { r with env := { r.env with script := [⟨5000, .send 2⟩, ⟨54780, .asmPoll⟩] } }
    s.Inv ∧ s.tx.busy = false ∧ (∀ e ∈ s.env.script, e.event ≠ .reset) ∧
      exec (.txFrame 0x550156) s = .next ((startFrame 0x550156 s).returning (.send .started)) := by
  simp only [next_iff]; decide

/-- Clause by clause: an instruction that raises a pulse, a step at one instant with a pulse up, a step in which time
passes. -/
theorem witness_PulsePortsLastOneClock :
    (Instr.send 15 ≠ .reset ∧ exec (.send 15) State.reset =
      .next { State.reset with pulses := ⟨true, false, false⟩, result := .send (.unknownCommandError 15) }) ∧
    (let s := { scripted [⟨0, .asmPoll⟩] with pulses := ⟨true, true, true⟩ };
      resetDue s.env.now s.env.script = none ∧
        step s = .next { State.reset with pulses := ⟨true, true, true⟩, result := .poll .noFrame }) ∧
    (step { State.reset with pulses := ⟨true, true, true⟩ } =
      .next { State.reset with env := { State.reset.env with now := 1 } }) := by
  simp only [next_iff]; decide

end Sys2Proof.Tests
end

section
/-! PROOFS. The passing of time (00_scope.md rule R15, 42_receiver.md rule R158): a step either stays at its instant or
is `passTime`. -/

namespace Sys2Proof.Machine

theorem passTime_eq (s : State) :
    passTime s = { s with env := { s.env with now := nextInstant s }, pulses := ⟨false, false, false⟩ } := rfl

theorem txStep_now (s : State) : (txStep s).env.now = s.env.now := by
  obtain ⟨m, h, -⟩ := txStep_frame s
  rw [h]

theorem applyLines_now (s : State) (e : Event) : (applyLines s e).env.now = s.env.now := by
  obtain ⟨c, d, m, h, -⟩ := applyLines_frame s e
  rw [h]

theorem detectEdge_now {s t : State} {od : Option Bit} (h : detectEdge s = (t, od)) : t.env.now = s.env.now := by
  obtain ⟨k, od', hd, -⟩ := detectEdge_eq s
  obtain ⟨rfl, -⟩ := Prod.mk.inj (h.symm.trans hd)
  rfl

/-- With no RESET due, a step that completes stays at its instant, or nothing at all was due and it is the passing of
time (60_exceptions.md rule R198). -/
theorem step_sameInstant_or_passTime {s t : State} (hr : resetDue s.env.now s.env.script = none)
    (h : step s = .next t) :
    t.env.now = s.env.now ∨
      (OnlyEventsDue s ∧ eventDue s.env.now s.env.script = none ∧ t = passTime s) := by
  rcases step_cases s with ⟨o, rest, hreset, -⟩ | ⟨-, -, hedge⟩ | ⟨-, -, -, htx⟩ | ⟨-, e, rest, hev, hrun⟩ |
    ⟨honly, hev, hpass⟩
  · rw [hr] at hreset; nomatch hreset
  · rcases hedge with ⟨u, d, hdet, hstep⟩ | ⟨u, hdet, hstep⟩
    · have hx : exec (.rxEdge u.env.now d) u = .next t := hstep.symm.trans h
      exact .inl ((exec_now (by simp) hx).trans (detectEdge_now hdet))
    · obtain rfl := Host.Outcome.next.inj (hstep.symm.trans h)
      exact .inl (detectEdge_now hdet)
  · obtain rfl := Host.Outcome.next.inj (htx.symm.trans h)
    exact .inl (txStep_now s)
  · rcases hrun with ⟨i, hi, hstep⟩ | ⟨-, hstep⟩
    · have hx : exec i (s.withScript rest) = .next t := hstep.symm.trans h
      exact .inl ((exec_now (eventInstr_ne_reset hr hev hi) hx).trans (State.withScript_now s rest))
    · obtain rfl := Host.Outcome.next.inj (hstep.symm.trans h)
      exact .inl (applyLines_now (s.withScript rest) e)
  · exact .inr ⟨honly, hev, (Host.Outcome.next.inj (hpass.symm.trans h)).symm⟩

end Sys2Proof.Machine
end

section

open Sys2Proof Sys2Proof.Machine

/-- Settles O13: a step stays at its instant or is `passTime`, which goes forward to `nextInstant`. -/
theorem timePassesOnlyWhenNothingIsDue : Obligations.TimePassesOnlyWhenNothingIsDue := by
  intro s t hr h
  rcases step_sameInstant_or_passTime hr h with hnow | ⟨⟨-, hedge, htx⟩, hev, rfl⟩
  · exact ⟨hnow.ge, fun hlt => absurd hnow hlt.ne'⟩
  · exact ⟨(nextInstant_gt s).le, fun _ => ⟨hedge, htx, hev, passTime_eq s⟩⟩

end

section
/-! PROOFS. What the operations leave unchanged (10_state.md rule R39): a consume and the start of a frame field by
field, and what no instruction but RESET can change. -/

namespace Sys2Proof.Machine

@[simp] theorem consume_cfg (r : FrameResult) (s : State) : (consume r s).cfg = s.cfg := by cases r <;> rfl
@[simp] theorem consume_timing (r : FrameResult) (s : State) : (consume r s).timing = s.timing := by cases r <;> rfl
@[simp] theorem consume_tx (r : FrameResult) (s : State) : (consume r s).tx = s.tx := by cases r <;> rfl
@[simp] theorem consume_rx (r : FrameResult) (s : State) : (consume r s).rx = { s.rx with bitCount := 0 } := by
  cases r <;> rfl
@[simp] theorem consume_env (r : FrameResult) (s : State) : (consume r s).env = s.env := by cases r <;> rfl

@[simp] theorem startFrame_cfg (W : Word24) (s : State) : (startFrame W s).cfg = s.cfg := rfl
@[simp] theorem startFrame_timing (W : Word24) (s : State) : (startFrame W s).timing = s.timing := rfl
@[simp] theorem startFrame_tx (W : Word24) (s : State) :
    (startFrame W s).tx = ⟨W, true, .porch, 0, s.env.now + s.timing.frontPorch, false, false⟩ := rfl
@[simp] theorem startFrame_rx (W : Word24) (s : State) : (startFrame W s).rx = s.rx := rfl
@[simp] theorem startFrame_latch (W : Word24) (s : State) : (startFrame W s).latch = s.latch := rfl
@[simp] theorem startFrame_env (W : Word24) (s : State) : (startFrame W s).env = carryData false s := rfl

/-- A result no pulse output reports leaves the pulses as they are. -/
theorem Pulses.raisedBy_quiet {r : OpResult} (p : Pulses) (hu : r.sentUnknown = false) (ho : r.polledOk = false)
    (hb : r.polledBad = false) : p.raisedBy r = p := by
  simp [Pulses.raisedBy, hu, ho, hb]

/-- An instruction other than RESET writes no parameter and no profile register, and keeps the size of the
accumulator. -/
theorem exec_keeps_cfg_timing_size {i : Instr} {s t : State} (hi : i ≠ .reset) (h : exec i s = .next t) :
    t.cfg = s.cfg ∧ t.timing = s.timing ∧ t.rx.acc.length = s.rx.acc.length := by
  rcases exec_cases hi h with ⟨r, rfl, _⟩ | ⟨τ, d, _, _, rfl⟩ | ⟨_, rfl⟩ | ⟨_, rfl⟩ | ⟨_, r, rfl⟩ | ⟨_, _, W, rfl⟩ <;>
    simp

/-- An instruction other than RESET changes the environment's side at most in the note of when data_in moved. -/
theorem exec_env {i : Instr} {s t : State} (hi : i ≠ .reset) (h : exec i s = .next t) :
    ∃ m, t.env = { s.env with dataMoved := m } ∧ (m = s.env.dataMoved ∨ m = some s.env.now) := by
  rcases exec_cases hi h with ⟨r, rfl, _⟩ | ⟨τ, d, _, _, rfl⟩ | ⟨_, rfl⟩ | ⟨_, rfl⟩ | ⟨_, r, rfl⟩ | ⟨_, _, W, rfl⟩
  case inr.inr.inr.inr.inr => exact carryData_eq false s
  all_goals exact ⟨s.env.dataMoved, by simp, .inl rfl⟩

/-- An instruction other than RESET leaves the transmitter, or finds it free and starts a frame. -/
theorem exec_tx {i : Instr} {s t : State} (hi : i ≠ .reset) (h : exec i s = .next t) :
    t.tx = s.tx ∨ ∃ W, t.tx = ⟨W, true, .porch, 0, s.env.now + s.timing.frontPorch, false, false⟩ := by
  rcases exec_cases hi h with ⟨r, rfl, _⟩ | ⟨τ, d, _, _, rfl⟩ | ⟨_, rfl⟩ | ⟨_, rfl⟩ | ⟨_, r, rfl⟩ | ⟨_, _, W, rfl⟩
  case inr.inr.inr.inr.inr => exact .inr ⟨W, rfl⟩
  all_goals exact .inl (by simp)

/-- A RESET that completes gives the reset state for the parameters. -/
theorem exec_reset_next {s t : State} (h : exec .reset s = .next t) : t = resetRegisters s := by
  simp only [exec, execReset] at h
  split at h
  · nomatch h
  · exact (Host.Outcome.next.inj h).symm

@[simp] theorem resetRegisters_cfg (s : State) : (resetRegisters s).cfg = s.cfg := rfl
@[simp] theorem resetRegisters_timing (s : State) : (resetRegisters s).timing = timingOf s.cfg.baud := rfl

/-- No instruction writes a parameter. -/
theorem exec_cfg {i : Instr} {s t : State} (h : exec i s = .next t) : t.cfg = s.cfg := by
  by_cases hi : i = .reset
  · subst hi
    rw [exec_reset_next h, resetRegisters_cfg]
  · obtain ⟨hcfg, -, -⟩ := exec_keeps_cfg_timing_size hi h
    exact hcfg

/-- No step writes a parameter: each branch is an instruction, or moves lines, the detector, the transmitter or time. -/
theorem step_cfg {s t : State} (h : step s = .next t) : t.cfg = s.cfg := by
  rcases step_cases s with ⟨o, rest, -, hstep⟩ | ⟨-, -, hedge⟩ | ⟨-, -, -, hstep⟩ | ⟨-, e, rest, -, hrun⟩ |
    ⟨-, -, hstep⟩
  · obtain ⟨c, d, m, hfold, -⟩ := foldl_applyLines o s
    rw [exec_cfg (hstep.symm.trans h), hfold]
    rfl
  · obtain ⟨k, od, hdet, -⟩ := detectEdge_eq s
    rcases hedge with ⟨u, d, hu, hstep⟩ | ⟨u, hu, hstep⟩ <;> obtain ⟨rfl, -⟩ := Prod.mk.inj (hu.symm.trans hdet)
    · exact (exec_cfg (hstep.symm.trans h)).trans rfl
    · rw [← Host.Outcome.next.inj (hstep.symm.trans h)]
  · obtain ⟨m, htx, -⟩ := txStep_frame s
    rw [← Host.Outcome.next.inj (hstep.symm.trans h), htx]
  · rcases hrun with ⟨i, -, hstep⟩ | ⟨-, hstep⟩
    · rw [exec_cfg (hstep.symm.trans h), State.withScript_cfg]
    · obtain ⟨c, d, m, hlines, -⟩ := applyLines_frame (s.withScript rest) e
      rw [← Host.Outcome.next.inj (hstep.symm.trans h), hlines]
      rfl
  · rw [← Host.Outcome.next.inj (hstep.symm.trans h), passTime_eq]

end Sys2Proof.Machine
end

section
/-! PROOFS. Every step keeps the invariant (10_state.md rule R41). The transmitter's share of the invariant is named, so
that each branch of a step shows it, the accumulator's size and the note of data_in, and nothing else. -/

namespace Sys2Proof.Machine

/-- The transmitter's share of `State.Inv` at an instant. -/
def TxState.Good (now : Nat) (t : TxState) : Prop :=
  BusyMatchesPhase t ∧ t.bit ≤ 23 ∧ linesMatch t = true ∧ (t.phase ≠ .idle → now ≤ t.deadline)

/-- A frame is in flight. -/
theorem TxState.Good.of_inFlight {now : Nat} {t : TxState} (hbusy : t.busy = true) (hphase : t.phase ≠ .idle)
    (hbit : t.bit ≤ 23) (hlines : linesMatch t = true) (hdeadline : now ≤ t.deadline) : t.Good now :=
  ⟨⟨fun hfree => absurd (hfree.symm.trans hbusy) Bool.false_ne_true, fun hidle => absurd hidle hphase⟩, hbit, hlines,
    fun _ => hdeadline⟩

/-- No frame is in flight. -/
theorem TxState.Good.of_idle {now : Nat} {t : TxState} (hfree : t.busy = false) (hphase : t.phase = .idle)
    (hbit : t.bit ≤ 23) (hlines : linesMatch t = true) : t.Good now :=
  ⟨⟨fun _ => hphase, fun _ => hfree⟩, hbit, hlines, fun hflight => absurd hphase hflight⟩

theorem TxState.Good.inFlight {now : Nat} {t : TxState} (h : t.Good now) (hphase : t.phase ≠ .idle) :
    t.busy = true ∧ t.bit ≤ 23 ∧ linesMatch t = true ∧ now ≤ t.deadline := by
  obtain ⟨hbusy, hbit, hlines, hdeadline⟩ := h
  exact ⟨Bool.eq_true_of_not_eq_false fun hfree => hphase (hbusy.mp hfree), hbit, hlines, hdeadline hphase⟩

theorem State.Inv.txGood {s : State} (h : s.Inv) : s.tx.Good s.env.now := by
  obtain ⟨-, -, -, hbusy, hbit, hlines, hdeadline, -, -⟩ := h
  exact ⟨hbusy, hbit, hlines, hdeadline⟩

theorem State.Inv.dataMovedPast {s : State} (h : s.Inv) : DataMovedPast s.env := by
  obtain ⟨-, -, -, -, -, -, -, hmoved, -⟩ := h
  exact hmoved

/-- A state with the parameters, the profile, the accumulator's size and no other events than a good state's is good
once its transmitter and the note of data_in are. -/
theorem State.Inv.of_kept {s t : State} (h : s.Inv)
    (hkept : t.cfg = s.cfg ∧ t.timing = s.timing ∧ t.rx.acc.length = s.rx.acc.length)
    (hscript : ∀ e ∈ t.env.script, e ∈ s.env.script) (htx : t.tx.Good t.env.now) (hmoved : DataMovedPast t.env) :
    t.Inv := by
  obtain ⟨hwf, htiming, hacc, -, -, -, -, -, hevents⟩ := h
  obtain ⟨hcfg', htiming', hacc'⟩ := hkept
  obtain ⟨hbusy, hbit, hlines, hdeadline⟩ := htx
  refine ⟨hcfg' ▸ hwf, ?_, ?_, hbusy, hbit, hlines, hdeadline, hmoved, fun e he => hevents e (hscript e he)⟩
  · rw [htiming', hcfg', htiming]
  · exact hacc'.trans (hacc.trans (congrArg Config.accCapacity hcfg'.symm))

/-- A note of data_in that is kept, or taken now, lies in the past. -/
theorem dataMovedPast_of_keptOrNow {e e' : Env} (h : DataMovedPast e) (hnow : e'.now = e.now)
    (hm : e'.dataMoved = e.dataMoved ∨ e'.dataMoved = some e.now) : DataMovedPast e' := by
  intro m hmem
  rw [hnow]
  rcases hm with hm | hm <;> rw [hm] at hmem
  · exact h m hmem
  · exact (Option.mem_some.mp hmem).ge

/-- The environment's side may set its levels, note a move of data_in now, draw free values, and lose events. -/
theorem inv_withEnv {s : State} (h : s.Inv) {e : Env} (hnow : e.now = s.env.now)
    (hm : e.dataMoved = s.env.dataMoved ∨ e.dataMoved = some s.env.now) (hscript : ∀ x ∈ e.script, x ∈ s.env.script) :
    (s.withEnv e).Inv :=
  h.of_kept ⟨rfl, rfl, rfl⟩ hscript (by simpa [hnow] using h.txGood)
    (dataMovedPast_of_keptOrNow h.dataMovedPast hnow hm)

/-- The transmitter is good at the start of a frame. -/
theorem txGood_startFrame (W : Word24) (now porch : Nat) :
    TxState.Good now ⟨W, true, .porch, 0, now + porch, false, false⟩ :=
  .of_inFlight rfl (by simp) (Nat.zero_le 23) rfl (Nat.le_add_right now porch)

/-- Every instruction but RESET keeps the invariant. -/
theorem exec_keeps_inv {i : Instr} {s t : State} (hi : i ≠ .reset) (h : exec i s = .next t) (hs : s.Inv) : t.Inv := by
  obtain ⟨m, henv, hm⟩ := exec_env hi h
  refine hs.of_kept (exec_keeps_cfg_timing_size hi h) (by simp [henv]) ?_
    (dataMovedPast_of_keptOrNow hs.dataMovedPast (by rw [henv]) (by rw [henv]; exact hm))
  rw [exec_now hi h]
  rcases exec_tx hi h with htx | ⟨W, htx⟩ <;> rw [htx]
  · exact hs.txGood
  · exact txGood_startFrame W _ _

/-- The reset state for admitted parameters is good, whatever well-formed events are to come. -/
theorem resetRegisters_inv {s : State} (hwf : s.cfg.wf) (hevents : ScriptWellFormed s.env.script) :
    (resetRegisters s).Inv := by
  obtain ⟨hbusy, hbit, hlines, hdeadline⟩ : (resetRegisters s).tx.Good (resetRegisters s).env.now :=
    .of_idle rfl rfl (Nat.zero_le 23) rfl
  exact ⟨hwf, rfl, resetAcc_wf s.cfg, hbusy, hbit, hlines, hdeadline, fun _ hm => (nomatch hm), hevents⟩

/-- A TX_STEP leaves the transmitter good when its deadline has not been passed: each phase is entered with its lines,
a bit index up to 23 and a deadline no earlier than the old one (41_transmitter.md rule R127). -/
theorem txStep_txGood {s : State} (h : s.tx.Good s.env.now) : (txStep s).tx.Good s.env.now := by
  by_cases hidle : s.tx.phase = .idle
  · rwa [txStep_idle hidle]
  obtain ⟨hbusy, hbit, hlines, hdeadline⟩ := h.inFlight hidle
  have hlater (n : Nat) : s.env.now ≤ s.tx.deadline + n := hdeadline.trans (Nat.le_add_right _ n)
  rcases hp : s.tx.phase with _ | _ | _ | _ | _ | _ <;> simp only [linesMatch, hp] at hlines
  · exact absurd hp hidle
  · rw [txStep_porch hp]
    exact .of_inFlight hbusy (by simp) (Nat.zero_le 23) (by simp_all [linesMatch, currentBit]) (hlater _)
  · rw [txStep_setup hp]
    exact .of_inFlight hbusy (by simp) hbit (by simp_all [linesMatch, currentBit]) (hlater _)
  · rw [txStep_high hp]
    exact .of_inFlight hbusy (by simp) hbit (by simp_all [linesMatch, currentBit]) (hlater _)
  · rw [txStep_fall hp]
    exact .of_inFlight hbusy (by simp) hbit (by simp_all [linesMatch]) (hlater _)
  · by_cases hb : s.tx.bit < 23
    · rw [txStep_low_next hp hb]
      exact .of_inFlight hbusy (by simp) hb (by simp_all [linesMatch, currentBit]) (hlater _)
    · rw [txStep_low_last hp hb]
      exact .of_idle rfl rfl hbit rfl

theorem txStep_keeps_inv {s : State} (h : s.Inv) : (txStep s).Inv := by
  obtain ⟨m, htx, -, hm⟩ := txStep_frame s
  refine h.of_kept ?_ ?_ ?_ ?_
  · rw [htx]; exact ⟨rfl, rfl, rfl⟩
  · rw [htx]; exact fun _ he => he
  · rw [txStep_now]; exact txStep_txGood h.txGood
  · exact dataMovedPast_of_keptOrNow h.dataMovedPast (txStep_now s) (by rw [htx]; exact hm)

/-- Time passes no further than the deadline of a frame in flight, as no TX_STEP is due. -/
theorem passTime_keeps_inv {s : State} (h : s.Inv) (hdue : txDue s = false) : (passTime s).Inv := by
  obtain ⟨hbusy, hbit, hlines, hdeadline⟩ := h.txGood
  refine h.of_kept ⟨rfl, rfl, rfl⟩ (fun _ he => he) ⟨hbusy, hbit, hlines, fun hphase => ?_⟩
    fun m hm => (h.dataMovedPast m hm).trans (nextInstant_gt s).le
  have hflight : s.tx.phase ≠ .idle := hphase
  have hne : s.env.now ≠ s.tx.deadline := by simpa [txDue, hflight] using hdue
  exact nextInstant_le_deadline hphase (lt_of_le_of_ne (hdeadline hphase) hne)

/-- The detector keeps the invariant: it takes a level and may draw free values. -/
theorem detectEdge_keeps_inv {s t : State} {od : Option Bit} (h : s.Inv) (hdet : detectEdge s = (t, od)) : t.Inv := by
  obtain ⟨k, od', hd, -⟩ := detectEdge_eq s
  obtain ⟨rfl, -⟩ := Prod.mk.inj (hdet.symm.trans hd)
  exact h.of_kept ⟨rfl, rfl, rfl⟩ (fun _ he => he) h.txGood h.dataMovedPast

/-- An event taken off keeps the invariant, and so does what it does to the lines. -/
theorem applyLines_keeps_inv {s : State} (h : s.Inv) (e : Event) : (applyLines s e).Inv := by
  obtain ⟨c, d, m, hlines, hm⟩ := applyLines_frame s e
  rw [hlines]
  exact inv_withEnv h rfl hm fun _ he => he

theorem withScript_keeps_inv {s : State} (h : s.Inv) {rest : List Timed} (hrest : ∀ e ∈ rest, e ∈ s.env.script) :
    (s.withScript rest).Inv :=
  inv_withEnv h rfl (.inl rfl) hrest

theorem eventDue_suffix {now : Nat} {script : List Timed} {e : Event} {rest : List Timed}
    (h : eventDue now script = some (e, rest)) : ∀ x ∈ rest, x ∈ script := by
  obtain ⟨t, rfl, -⟩ := eventDue_some h
  exact fun _ hx => List.mem_cons_of_mem _ hx

/-- A RESET that overrides its instant gives a good state. -/
theorem exec_reset_overriding_inv {s t : State} {o : List Event} {rest : List Timed} (hs : s.Inv)
    (hrest : ∀ e ∈ rest, e ∈ s.env.script)
    (h : exec .reset ((o.foldl applyLines s).withScript rest) = .next t) : t.Inv := by
  obtain ⟨hwf, -, -, -, -, -, -, -, hevents⟩ := hs
  obtain ⟨c, d, m, hfold, -⟩ := foldl_applyLines o s
  rw [exec_reset_next h]
  exact resetRegisters_inv (by rw [hfold]; exact hwf) fun e he => hevents e (hrest e he)

end Sys2Proof.Machine
end

section

open Sys2Proof Sys2Proof.Machine

/-- Settles O50: branch by branch of `step_cases`, each branch keeps the invariant. -/
theorem stepKeepsGoodStates : Obligations.StepKeepsGoodStates := by
  intro s t hs h
  rcases step_cases s with ⟨o, rest, hreset, hstep⟩ | ⟨-, -, hedge⟩ | ⟨-, -, -, hstep⟩ |
    ⟨⟨hreset, -, -⟩, e, rest, hev, hrun⟩ | ⟨⟨-, -, htx⟩, -, hstep⟩
  · exact exec_reset_overriding_inv hs (resetDue_suffix hreset) (hstep.symm.trans h)
  · rcases hedge with ⟨u, d, hdet, hstep⟩ | ⟨u, hdet, hstep⟩
    · exact exec_keeps_inv (by simp) (hstep.symm.trans h) (detectEdge_keeps_inv hs hdet)
    · obtain rfl := Host.Outcome.next.inj (hstep.symm.trans h)
      exact detectEdge_keeps_inv hs hdet
  · obtain rfl := Host.Outcome.next.inj (hstep.symm.trans h)
    exact txStep_keeps_inv hs
  · have hrest : (s.withScript rest).Inv := withScript_keeps_inv hs (eventDue_suffix hev)
    rcases hrun with ⟨i, hi, hstep⟩ | ⟨-, hstep⟩
    · exact exec_keeps_inv (eventInstr_ne_reset hreset hev hi) (hstep.symm.trans h) hrest
    · obtain rfl := Host.Outcome.next.inj (hstep.symm.trans h)
      exact applyLines_keeps_inv hrest e
  · obtain rfl := Host.Outcome.next.inj (hstep.symm.trans h)
    exact passTime_keeps_inv hs htx

/-- Settles O52: `exec_cfg` and `step_cfg`; a RESET writes the profile of the same BAUD. -/
theorem parametersAndProfileAreNeverWritten : Obligations.ParametersAndProfileAreNeverWritten := by
  refine ⟨fun _ _ _ h => exec_cfg h, fun _ _ h => step_cfg h, fun i s t h => ?_⟩
  by_cases hi : i = .reset
  · subst hi
    exact .inr ⟨rfl, by rw [exec_reset_next h, resetRegisters_timing]⟩
  · obtain ⟨-, htiming, -⟩ := exec_keeps_cfg_timing_size hi h
    exact .inl htiming

/-- Settles O49: the state after reset is RESET's own state for the default parameters, with no event to come. -/
theorem resetStateIsGood : Obligations.ResetStateIsGood :=
  resetRegisters_inv (s := State.reset) (by decide) fun _ he => nomatch he

/-- Settles O48: BAUD is at least 1, so RESET is not refused. -/
theorem resetGivesEveryRegisterItsValue : Obligations.ResetGivesEveryRegisterItsValue := by
  intro s h
  rw [exec_reset h]
  rfl

end

section
/-! PROOFS. The access table (10_state.md rule R39), one lemma per group of registers, each from `exec_cases`; and the
branches of a step that the edge detector or a line event takes. -/

namespace Sys2Proof.Machine

/-- Only RX_EDGE writes the edge's registers, and what else changes the count empties it. -/
theorem exec_edgeRegisters {i : Instr} {s t : State} (hi : i ≠ .reset) (h : exec i s = .next t)
    (hedge : ∀ τ d, i ≠ .rxEdge τ d) :
    t.rx.lastEdgeTime = s.rx.lastEdgeTime ∧ t.rx.acc = s.rx.acc ∧ t.rx.statusLed = s.rx.statusLed ∧
      (t.rx.bitCount = s.rx.bitCount ∨ (t.rx.bitCount = 0 ∧ (i = .asmPoll ∨ i.isFrameWord = true))) := by
  rcases exec_cases hi h with ⟨r, rfl, _⟩ | ⟨τ, d, hτ, _⟩ | ⟨_, rfl⟩ | ⟨_, rfl⟩ | ⟨hpoll, r, rfl⟩ | ⟨_, _, W, rfl⟩
  case inr.inl => exact absurd hτ (hedge τ d)
  case inr.inr.inr.inr.inl => simp [hpoll]
  all_goals simp

/-- Only RX_ENABLE writes cin_prev, and only RX_ENABLE and RX_DISABLE write rx_enabled. -/
theorem exec_enableRegisters {i : Instr} {s t : State} (hi : i ≠ .reset) (h : exec i s = .next t)
    (hen : i ≠ .rxEnable) : t.rx.cinPrev = s.rx.cinPrev ∧ (i ≠ .rxDisable → t.rx.rxEnabled = s.rx.rxEnabled) := by
  rcases exec_cases hi h with ⟨r, rfl, _⟩ | ⟨τ, d, _, _, rfl⟩ | ⟨henable, _⟩ | ⟨hdisable, rfl⟩ | ⟨_, r, rfl⟩ |
    ⟨_, _, W, rfl⟩
  case inr.inr.inl => exact absurd henable hen
  case inr.inr.inr.inl => exact ⟨rfl, fun hdis => absurd hdisable hdis⟩
  all_goals simp

/-- Only ASM_POLL and the frame words write the latch. -/
theorem exec_latch {i : Instr} {s t : State} (hi : i ≠ .reset) (h : exec i s = .next t) (hpoll : i ≠ .asmPoll)
    (hframe : i.isFrameWord = false) : t.latch = s.latch := by
  rcases exec_cases hi h with ⟨r, rfl, _⟩ | ⟨τ, d, _, _, rfl⟩ | ⟨_, rfl⟩ | ⟨_, rfl⟩ | ⟨hconsume, _⟩ | ⟨_, _, W, rfl⟩
  case inr.inr.inr.inr.inl => simp [hpoll, hframe] at hconsume
  all_goals simp

/-- Only SEND and TX_FRAME write the transmitter and the environment's side. -/
theorem exec_tx_env {i : Instr} {s t : State} (hi : i ≠ .reset) (h : exec i s = .next t) (hsend : ∀ c, i ≠ .send c)
    (hframe : ∀ W, i ≠ .txFrame W) : t.tx = s.tx ∧ t.env = s.env := by
  rcases exec_cases hi h with ⟨r, rfl, _⟩ | ⟨τ, d, _, _, rfl⟩ | ⟨_, rfl⟩ | ⟨_, rfl⟩ | ⟨_, r, rfl⟩ | ⟨hstart, _⟩
  case inr.inr.inr.inr.inr => simp [hsend, hframe] at hstart
  all_goals simp

/-- Only SEND, ASM_POLL and the frame words raise a pulse output. -/
theorem exec_pulses_quiet {i : Instr} {s t : State} (hi : i ≠ .reset) (h : exec i s = .next t)
    (hsend : ∀ c, i ≠ .send c) (hpoll : i ≠ .asmPoll) (hframe : i.isFrameWord = false) : t.pulses = s.pulses := by
  rcases exec_cases hi h with ⟨r, rfl, hok, hbad, hunknown⟩ | ⟨τ, d, _, _, rfl⟩ | ⟨_, rfl⟩ | ⟨_, rfl⟩ |
    ⟨hconsume, _⟩ | ⟨_, _, W, rfl⟩
  case inl =>
    have hu : r.sentUnknown = false := Bool.eq_false_iff.mpr fun hr => (hunknown hr).elim hsend
    exact s.pulses.raisedBy_quiet hu hok hbad
  case inr.inr.inr.inr.inl => simp [hpoll, hframe] at hconsume
  all_goals rfl

/-- The detector has something to do when the clock is not at the level last seen. -/
theorem edgeDue_of_ne {s : State} (h : s.rx.cinPrev ≠ levelClockIn s) : edgeDue s = true := by
  simp [edgeDue, h]

/-- A clock that is high, last seen low, with the receiver enabled, is a rising edge that is due. -/
theorem risingEdge_due {s : State} (hen : s.rx.rxEnabled = true) (hprev : s.rx.cinPrev = false)
    (hclock : levelClockIn s = true) : edgeDue s = true ∧ risingEdge s = true := by
  simp [edgeDue, risingEdge, hen, hprev, hclock]

theorem seeClock_eq (s : State) : seeClock s = { s with rx := { s.rx with cinPrev := levelClockIn s } } := rfl

/-- A line event sets the levels when the environment drives the lines. -/
theorem applyLines_lines_separate {s : State} (h : s.cfg.wiring = .separate) (c d : Bit) :
    applyLines s (.lines c d) =
      s.withEnv { s.env with
        clockIn := c, dataIn := d, dataMoved := if s.env.dataIn = d then s.env.dataMoved else some s.env.now } := by
  simp [applyLines, setLines, h]

end Sys2Proof.Machine
end

section
/-! PROOFS. A run of enabled edges (42_receiver.md rules R151, R155, R156). The run is first taken to a fold over the
receiver's registers, `sampleEdges`; its count, indicator and slots are then separate inductions over the edges. -/

namespace Sys2Proof.Machine

/-- The receiver's registers after a list of edges, none ignored. -/
def sampleEdges (capacity : Nat) : List (Nat × Bit) → RxState → RxState
  | [], r => r
  | e :: edges, r => sampleEdges capacity edges (sampleEdge capacity e.1 e.2 r)

/-- The slot the next sample goes to, for the times of the edges to come. -/
def nextSlot (r : RxState) : List Nat → Nat
  | [] => r.bitCount
  | t :: _ => resyncedCount t r

/-- Executing enabled edges completes with the receiver's registers folded over them. -/
theorem execAll_edgeInstrs (edges : List (Nat × Bit)) {s : State} (h : s.rx.rxEnabled = true) :
    ∃ t, execAll (edgeInstrs edges) s = .next t ∧ t.rx = sampleEdges s.cfg.accCapacity edges s.rx := by
  induction edges generalizing s with
  | nil => exact ⟨s, rfl, rfl⟩
  | cons e edges ih =>
    obtain ⟨t, hrun, hrx⟩ := ih (s := (s.withRx (sampleEdge s.cfg.accCapacity e.1 e.2 s.rx)).returning
      (.edge (sampleResult s.cfg.accCapacity e.1 e.2 s.rx))) h
    refine ⟨t, ?_, hrx⟩
    simpa only [edgeInstrs, List.map_cons, execAll, exec_rxEdge_enabled _ _ h] using hrun

/-- A capture starts in slot 0. -/
theorem nextSlot_of_startsCapture {r : RxState} {times : List Nat} (h : startsCapture r times = true) :
    nextSlot r times = 0 := by
  cases times with
  | nil => exact beq_iff_eq.mp h
  | cons t times =>
    simp only [startsCapture, Bool.or_eq_true, beq_iff_eq, decide_eq_true_eq] at h
    by_cases hsilence : r.lastEdgeTime + 100000 < t
    · exact resyncedCount_silence hsilence
    · have hcount : r.bitCount = 0 := h.resolve_right hsilence
      rw [nextSlot, resyncedCount_noSilence (Nat.le_of_not_lt hsilence), hcount]

theorem gapless_cons_cons {t t' : Nat} {times : List Nat} :
    gapless (t :: t' :: times) = true ↔ t' ≤ t + 100000 ∧ gapless (t' :: times) = true := by
  simp only [gapless, noSilence, Bool.and_eq_true, decide_eq_true_eq]
  rfl

theorem gapless_tail {t : Nat} {times : List Nat} (h : gapless (t :: times) = true) : gapless times = true := by
  cases times with
  | nil => rfl
  | cons t' times => exact (gapless_cons_cons.mp h).2

/-- Without a silence behind it, a sampled edge moves the next slot up by one. -/
theorem nextSlot_sampleEdge {capacity t : Nat} {d : Bit} {r : RxState} {times : List Nat}
    (h : gapless (t :: times) = true) :
    nextSlot (sampleEdge capacity t d r) times = nextSlot r (t :: times) + 1 := by
  cases times with
  | nil => rfl
  | cons t' times => exact resyncedCount_noSilence (gapless_cons_cons.mp h).1

@[simp] theorem sampleEdges_acc_length (capacity : Nat) (edges : List (Nat × Bit)) (r : RxState) :
    (sampleEdges capacity edges r).acc.length = r.acc.length := by
  induction edges generalizing r with
  | nil => rfl
  | cons e edges ih => simp [sampleEdges, ih]

/-- The indicator is toggled once per edge. -/
theorem sampleEdges_statusLed (capacity : Nat) (edges : List (Nat × Bit)) (r : RxState) :
    (sampleEdges capacity edges r).statusLed = (r.statusLed ^^ decide (edges.length % 2 = 1)) := by
  induction edges generalizing r with
  | nil => simp [sampleEdges]
  | cons e edges ih =>
    rw [sampleEdges, ih, sampleEdge_statusLed, List.length_cons]
    rcases Nat.mod_two_eq_zero_or_one edges.length with hparity | hparity <;>
      simp [Nat.add_mod, hparity]

/-- Every edge is counted from the slot of the first. -/
theorem sampleEdges_bitCount (capacity : Nat) (edges : List (Nat × Bit)) (r : RxState)
    (h : gapless (edges.map Prod.fst) = true) :
    (sampleEdges capacity edges r).bitCount = nextSlot r (edges.map Prod.fst) + edges.length := by
  induction edges generalizing r with
  | nil => rfl
  | cons e edges ih =>
    rw [sampleEdges, ih _ (gapless_tail h), nextSlot_sampleEdge h]
    simp only [List.map_cons, List.length_cons]
    omega

/-- The slots before the first sample's and past the last sample's stay. -/
theorem sampleEdges_acc_other (capacity : Nat) (edges : List (Nat × Bit)) (r : RxState) {j : Nat}
    (h : gapless (edges.map Prod.fst) = true)
    (hj : j < nextSlot r (edges.map Prod.fst) ∨ nextSlot r (edges.map Prod.fst) + edges.length ≤ j) :
    (sampleEdges capacity edges r).acc[j]? = r.acc[j]? := by
  induction edges generalizing r with
  | nil => rfl
  | cons e edges ih =>
    have hslot := nextSlot_sampleEdge (capacity := capacity) (d := e.2) (r := r) h
    rw [List.map_cons, List.length_cons] at hj
    rw [sampleEdges, ih _ (gapless_tail h) (by omega), sampleEdge_acc]
    have hne : j ≠ nextSlot r (e.1 :: edges.map Prod.fst) := by omega
    exact accWrite_other hne

/-- The `k`-th sample is in the `k`-th slot from the first sample's, if the accumulator has that slot. -/
theorem sampleEdges_acc_sampled {capacity : Nat} (edges : List (Nat × Bit)) {r : RxState} {k : Nat}
    (h : gapless (edges.map Prod.fst) = true) (hacc : Memory.wf capacity r.acc) (hk : k < edges.length)
    (hslot : nextSlot r (edges.map Prod.fst) + k < capacity) :
    (sampleEdges capacity edges r).acc[nextSlot r (edges.map Prod.fst) + k]? = (edges.map Prod.snd)[k]? := by
  induction edges generalizing r k with
  | nil => nomatch hk
  | cons e edges ih =>
    have hnext := nextSlot_sampleEdge (capacity := capacity) (d := e.2) (r := r) h
    have hacc' := accWrite_wf (resyncedCount e.1 r) e.2 hacc
    rw [List.map_cons] at hslot ⊢
    cases k with
    | zero =>
      rw [sampleEdges, sampleEdges_acc_other _ _ _ (gapless_tail h) (by omega)]
      exact accWrite_same hslot (hslot.trans_eq hacc.symm)
    | succ k =>
      have hk' : k < edges.length := Nat.lt_of_succ_lt_succ hk
      have hindex : nextSlot r (e.1 :: edges.map Prod.fst) + (k + 1) =
          nextSlot (sampleEdge capacity e.1 e.2 r) (edges.map Prod.fst) + k := by omega
      rw [sampleEdges, hindex]
      exact ih (gapless_tail h) hacc' hk' (hindex ▸ hslot)

end Sys2Proof.Machine
end

section

open Sys2Proof Sys2Proof.Machine

/-- Settles O53: each clause is the lemma of its registers. -/
theorem eachRegisterHasItsWriters : Obligations.EachRegisterHasItsWriters := fun _ _ _ hi h =>
  ⟨exec_edgeRegisters hi h, exec_enableRegisters hi h, exec_latch hi h, exec_tx_env hi h, exec_pulses_quiet hi h⟩

/-- Settles O8: the step is the detector's, and the sample is settled. -/
theorem risingEdgeStepSamplesTheLine : Obligations.RisingEdgeStepSamplesTheLine := by
  intro s hr hen hprev hclock hmoved hwide
  obtain ⟨hdue, hrising⟩ := risingEdge_due hen hprev hclock
  have hsettled : dataUnsettled s = false := by simp [dataUnsettled, hmoved]
  rw [step_edge hr hdue, detectEdge_settled hrising hwide hsettled, seeClock_eq, hclock]

/-- Settles O9: the sample is the next free value, and the draw is counted. -/
theorem undeterminedSampleIsSomeLevel : Obligations.UndeterminedSampleIsSomeLevel := by
  intro s hr hen hprev hclock hmoved hwide
  obtain ⟨hdue, hrising⟩ := risingEdge_due hen hprev hclock
  have hunsettled : dataUnsettled s = true := by simp [dataUnsettled, hmoved]
  refine ⟨Config.freeSample s.env.draws, ?_⟩
  rw [step_edge hr hdue, detectEdge_unsettled hrising hwide hunsettled, seeClock_eq, hclock]
  rfl

/-- Settles O10: the move is due but is no rising edge. -/
theorem otherClockMovesOnlyUpdateTheDetector : Obligations.OtherClockMovesOnlyUpdateTheDetector := by
  intro s hr hmove hnot
  have hrising : risingEdge s = false := by rcases hnot with hlow | hoff <;> simp [risingEdge, *]
  rw [step_edge hr (edgeDue_of_ne hmove), detectEdge_none hrising, seeClock_eq]

/-- Settles O14: the step is the line event's. -/
theorem lineEventSetsTheLevels : Obligations.LineEventSetsTheLevels := by
  intro s t rest c d honly hwire hscript ht
  have hdue : eventDue s.env.now s.env.script = some (.lines c d, rest) := by simp [hscript, eventDue, ht]
  rw [step_lines honly hdue rfl, applyLines_lines_separate (s := s.withScript rest) hwire]
  rfl

/-- Settles O40: the run is `sampleEdges`, from slot 0. -/
theorem edgesFillTheAccumulatorInOrder : Obligations.EdgesFillTheAccumulatorInOrder := by
  intro s edges hen hstart hacc hgap
  have hslot : nextSlot s.rx (edges.map Prod.fst) = 0 := nextSlot_of_startsCapture hstart
  obtain ⟨t, hrun, hrx⟩ := execAll_edgeInstrs edges hen
  refine ⟨t, hrun, ?_⟩
  rw [hrx]
  refine ⟨?_, fun k hk => ?_, fun k hk => ?_, sampleEdges_acc_length .., sampleEdges_statusLed ..⟩
  · rw [sampleEdges_bitCount _ _ _ hgap, hslot, Nat.zero_add]
  · obtain ⟨hlen, hcap⟩ := lt_min_iff.mp hk
    simpa [hslot] using sampleEdges_acc_sampled edges hgap hacc hlen (by rwa [hslot, Nat.zero_add])
  · exact sampleEdges_acc_other _ _ _ hgap (.inr (by rwa [hslot, Nat.zero_add]))

end

section
/-! PROOFS. An event at the head of the script (30_encoding.md rule R91), the capture a poll consumes as an instruction
(rule R89), and the state that `withFetchWord` places: with nothing due but its poll, it captures the word. -/

namespace Sys2Proof.Machine

theorem eventDue_cons {now : Nat} {e : Timed} (rest : List Timed) (h : e.time ≤ now) :
    eventDue now (e :: rest) = some (e.event, rest) := by
  simp [eventDue, h]

/-- The first event of the script, once its instant has come, is what the next step runs. -/
theorem step_headEvent {s : State} {e : Timed} {rest : List Timed} {i : Instr} (honly : OnlyEventsDue s)
    (hscript : s.env.script = e :: rest) (htime : e.time ≤ s.env.now) (hi : eventInstr s e.event = some i) :
    step s = exec i (s.withScript rest) :=
  step_event honly (by rw [hscript, eventDue_cons rest htime]) hi

/-- A complete capture whose bytes decode is the instruction they decode to. -/
theorem capturedInstr_of_decode {s : State} {bytes tail : List Byte} {i : Instr}
    (hcount : s.cfg.frameThreshold ≤ s.rx.bitCount) (hbytes : capturedBytes s.rx.acc = some bytes)
    (hdec : decode bytes = .ok (i, tail)) : capturedInstr s = some i := by
  simp [capturedInstr, hcount, hbytes, hdec]

/-- A poll that finds a captured instruction asks for it. -/
theorem eventInstr_asmPoll_captured {s : State} {i : Instr} (h : capturedInstr s = some i) :
    eventInstr s .asmPoll = some i := by
  simp [eventInstr, h]

/-- A number that decodes does so by the three bytes of its word. -/
theorem decode_of_decodeTableWord {n w : Nat} {i : Instr} (h : decodeTableWord n w = some i) :
    ∃ tail, decode (Frame.ofWord (BitVec.ofNat 24 w)).bytes = .ok (i, tail) := by
  unfold decodeTableWord at h
  split at h
  · split at h
    · rename_i j tail hdec
      exact ⟨tail, by rw [hdec, Option.some.inj h]⟩
    · nomatch h
  · nomatch h

/-- The bytes of a placed capture are the word's (20_memory.md rule R63). -/
theorem capturedBytes_placeCapture (W : Word24) (acc : List Bit) :
    capturedBytes (placeCapture W acc) = some (Frame.ofWord W).bytes := by
  have htake : (placeCapture W acc).take 24 = wireBits W ++ [] := by simp [placeCapture]
  have hread : accRead (placeCapture W acc) 0 24 = some ((placeCapture W acc).take 24) :=
    accRead_all (by simp [placeCapture])
  rw [capturedBytes, hread, htake, Option.map_some, assembleFrame_wireBits]

/-- With no RESET whose instant has come, none is due. -/
theorem resetDue_eq_none_of_ahead {now : Nat} {l : List Timed} (h : ∀ e ∈ l, e.event = .reset → now < e.time) :
    resetDue now l = none := by
  induction l with
  | nil => rfl
  | cons e l ih =>
    have hl := ih fun e' he' => h e' (List.mem_cons_of_mem _ he')
    have hhead : e.time ≤ now → e.event ≠ .reset := fun hle hreset =>
      absurd (h e List.mem_cons_self hreset) (Nat.not_lt.mpr hle)
    by_cases hle : e.time ≤ now
    · simp [resetDue, hle, hhead hle, hl]
    · simp [resetDue, hle]

/-- The script without the RESETs that are due. -/
def withoutDueResets (s : State) : List Timed :=
  s.env.script.filter fun e => !(e.event == .reset && decide (e.time ≤ s.env.now))

theorem resetDue_withoutDueResets (s : State) : resetDue s.env.now (withoutDueResets s) = none :=
  resetDue_eq_none_of_ahead fun e he hreset => by simpa [hreset] using (List.mem_filter.mp he).2

/-- Clearing an instant moves the detector's level, the transmitter's deadline and the script, and the deadline it
leaves is no TX_STEP now. -/
theorem clearInstant_eq (s : State) : ∃ D,
    s.clearInstant =
      { s with
        tx := { s.tx with deadline := D }
        rx := { s.rx with cinPrev := levelClockIn s }
        env := { s.env with script := withoutDueResets s } } ∧
    (s.tx.phase = .idle ∨ s.env.now ≠ D) := by
  by_cases hdue : txDue s = true
  · have hnow : s.env.now = s.tx.deadline := eq_of_beq (Bool.and_eq_true_iff.mp hdue).2
    refine ⟨s.tx.deadline + 1, ?_, .inr (by omega)⟩
    have hdue' : txDue (s.withRx { s.rx with cinPrev := levelClockIn s }) = true := hdue
    simp only [State.clearInstant, hdue', if_true]
    rfl
  · refine ⟨s.tx.deadline, ?_, by simpa [txDue, Classical.or_iff_not_imp_left] using hdue⟩
    have hdue' : ¬ txDue (s.withRx { s.rx with cinPrev := levelClockIn s }) = true := hdue
    simp only [State.clearInstant, hdue']
    rfl

/-- The state with a word placed, written out: the word is captured and its poll is the first event. -/
theorem withFetchWord_eq (s : State) (n w : Nat) : ∃ D,
    s.withFetchWord n w =
      { s with
        tx := { s.tx with deadline := D }
        rx := { s.rx with
          cinPrev := levelClockIn s
          acc := placeCapture (BitVec.ofNat 24 w) s.rx.acc
          bitCount := s.cfg.frameThreshold }
        env := { s.env with script := ⟨s.env.now, .asmPoll⟩ :: withoutDueResets s } } ∧
    (s.tx.phase = .idle ∨ s.env.now ≠ D) := by
  obtain ⟨D, hclear, hD⟩ := clearInstant_eq s
  exact ⟨D, by simp only [State.withFetchWord, State.withNextEvent, hclear]; rfl, hD⟩

/-- In the state with a word placed nothing is due but the poll. -/
theorem withFetchWord_onlyEventsDue (s : State) (n w : Nat) : OnlyEventsDue (s.withFetchWord n w) := by
  obtain ⟨D, heq, hD⟩ := withFetchWord_eq s n w
  rw [heq]
  refine ⟨?_, ?_, ?_⟩
  · simp [resetDue, resetDue_withoutDueResets]
  · simp [edgeDue, levelClockIn]
  · simpa [txDue, Classical.or_iff_not_imp_left] using hD

/-- The state with a word placed has captured the instruction the word decodes to. -/
theorem capturedInstr_withFetchWord {n w : Nat} {i : Instr} (s : State) (h : decodeTableWord n w = some i) :
    capturedInstr (s.withFetchWord n w) = some i := by
  obtain ⟨D, heq, -⟩ := withFetchWord_eq s n w
  obtain ⟨tail, hdec⟩ := decode_of_decodeTableWord h
  rw [heq]
  exact capturedInstr_of_decode (Nat.le_refl _) (capturedBytes_placeCapture _ _) hdec

/-- The first event of the state with a word placed is a poll whose instant is now. -/
theorem withFetchWord_script (s : State) (n w : Nat) :
    (s.withFetchWord n w).env.script =
      ⟨(s.withFetchWord n w).env.now, .asmPoll⟩ :: (s.withFetchWord n w).env.script.tail := by
  obtain ⟨D, heq, -⟩ := withFetchWord_eq s n w
  rw [heq]
  rfl

end Sys2Proof.Machine
end

section
/-! PROOFS. The receive side by itself (20_memory.md rule R76): the slots an edge leaves, what a poll that completes has
done, and that neither looks at the transmitter. -/

namespace Sys2Proof.Machine

/-- AccWrite leaves what is past the capacity (20_memory.md rule R61). -/
theorem accWrite_beyond {n : Nat} {acc : List Bit} {i j : Nat} {d : Bit} (h : n ≤ j) :
    (accWrite n acc i d)[j]? = acc[j]? := by
  by_cases hi : i < n
  · exact accWrite_other (by omega)
  · rw [accWrite, if_neg hi]

/-- What RX_EDGE leaves in the accumulator: the sample at the resynchronised count, or what was there. -/
theorem exec_rxEdge_acc {s u : State} {t : Nat} {d : Bit} (h : exec (.rxEdge t d) s = .next u) :
    u.rx.acc = s.rx.acc ∨ u.rx.acc = accWrite s.cfg.accCapacity s.rx.acc (resyncedCount t s.rx) d := by
  rcases hen : s.rx.rxEnabled with _ | _
  · rw [exec_rxEdge_disabled t d hen] at h
    exact .inl (by rw [← Host.Outcome.next.inj h, State.returning_rx])
  · rw [exec_rxEdge_enabled t d hen] at h
    exact .inr (by rw [← Host.Outcome.next.inj h]; rfl)

theorem exec_asmPoll_short {s : State} (h : s.cfg.frameThreshold ≤ s.rx.bitCount) (hl : s.rx.acc.length < 24) :
    exec .asmPoll s = .fault .accReadOutOfRange := by
  simp [exec, execAsmPoll, captureComplete, h, accRead_short hl]

/-- A poll that completes found no capture, or consumed slots 0 to 23. -/
theorem exec_asmPoll_next {s t : State} (h : exec .asmPoll s = .next t) :
    (s.rx.bitCount < s.cfg.frameThreshold ∧ t = s.returning (.poll .noFrame)) ∨
    (s.cfg.frameThreshold ≤ s.rx.bitCount ∧ 24 ≤ s.rx.acc.length ∧
      t = consume (bitsToFrame (s.rx.acc.take 24)) s) := by
  by_cases hcount : s.rx.bitCount < s.cfg.frameThreshold
  · rw [exec_asmPoll_incomplete hcount] at h
    exact .inl ⟨hcount, (Host.Outcome.next.inj h).symm⟩
  · have hcount' := Nat.le_of_not_lt hcount
    by_cases hlen : 24 ≤ s.rx.acc.length
    · rw [exec_asmPoll_complete hcount' hlen] at h
      exact .inr ⟨hcount', hlen, (Host.Outcome.next.inj h).symm⟩
    · rw [exec_asmPoll_short hcount' (Nat.lt_of_not_le hlen)] at h
      nomatch h

/-- What the host sees of the receive side: the receiver, the latch and the value returned. -/
def SameReceiveSide (t' t : State) : Prop := t'.rx = t.rx ∧ t'.latch = t.latch ∧ t'.result = t.result

section
variable {s s' : State} (hrx : s'.rx = s.rx) (hlatch : s'.latch = s.latch)
include hrx hlatch

/-- A consume looks at the receiver and the latch alone. -/
theorem SameReceiveSide.consume (r : FrameResult) : SameReceiveSide (consume r s') (consume r s) := by
  cases r with
  | ok F => exact ⟨by simp [hrx], rfl, rfl⟩
  | checksumMismatch => exact ⟨by simp [hrx], by simp [consume_bad, hlatch], rfl⟩

variable (hcfg : s'.cfg = s.cfg)
include hcfg

/-- RX_EDGE, RX_DISABLE and ASM_POLL look at the parameters, the receiver and the latch alone. -/
theorem exec_receiveSide {t : State} {i : Instr} (hi : i = .asmPoll ∨ i = .rxDisable ∨ ∃ τ d, i = .rxEdge τ d)
    (h : exec i s = .next t) : ∃ t', exec i s' = .next t' ∧ SameReceiveSide t' t := by
  rcases hi with rfl | rfl | ⟨τ, d, rfl⟩
  · rcases exec_asmPoll_next h with ⟨hcount, rfl⟩ | ⟨hcount, hlen, rfl⟩
    · exact ⟨_, exec_asmPoll_incomplete (by rwa [hrx, hcfg]), hrx, hlatch, rfl⟩
    · refine ⟨_, exec_asmPoll_complete (by rwa [hrx, hcfg]) (by rwa [hrx]), ?_⟩
      rw [hrx]
      exact .consume hrx hlatch _
  · obtain rfl := Host.Outcome.next.inj h
    exact ⟨_, rfl, congrArg RxState.disable hrx, hlatch, rfl⟩
  · rcases hen : s.rx.rxEnabled with _ | _
    · obtain rfl := Host.Outcome.next.inj ((exec_rxEdge_disabled τ d hen).symm.trans h)
      exact ⟨_, exec_rxEdge_disabled τ d (by rwa [hrx]), hrx, hlatch, rfl⟩
    · obtain rfl := Host.Outcome.next.inj ((exec_rxEdge_enabled τ d hen).symm.trans h)
      refine ⟨_, exec_rxEdge_enabled τ d (by rwa [hrx]), ?_⟩
      rw [hrx, hcfg]
      exact ⟨rfl, hlatch, rfl⟩

end

end Sys2Proof.Machine
end

section
/-! PROOFS. The transmitter in flight (41_transmitter.md rule R124, 20_memory.md rule R74). -/

namespace Sys2Proof.Machine

/-- While a frame is in flight no instruction but RESET writes the transmitter: a request is dropped. -/
theorem exec_tx_busy {i : Instr} {s t : State} (hbusy : s.tx.busy = true) (hi : i ≠ .reset)
    (h : exec i s = .next t) : t.tx = s.tx := by
  rcases exec_cases hi h with ⟨r, rfl, _⟩ | ⟨τ, d, _, _, rfl⟩ | ⟨_, rfl⟩ | ⟨_, rfl⟩ | ⟨_, r, rfl⟩ | ⟨_, hfree, _⟩
  case inr.inr.inr.inr.inr => rw [hbusy] at hfree; nomatch hfree
  all_goals simp

end Sys2Proof.Machine
end

section
/-! PROOFS. A frame captured one place late (20_memory.md rule R65): each field takes the last bit of the field before
it as its most significant bit, and loses its own last bit to the next. -/

namespace Sys2Proof.Machine

/-- A byte moved one place later in time behind a bit. -/
def lateByte (b : Bit) (x : Byte) : Byte := BitVec.cons b (x.extractLsb' 1 7)

/-- The frame the receiver assembles from a frame captured one place late behind a stray sample. -/
def lateFrame (stray : Bit) (F : Frame) : Frame :=
  { preamble := lateByte stray F.preamble
    payload := lateByte (F.preamble.getLsbD 0) F.payload
    checksum := lateByte (F.payload.getLsbD 0) F.checksum }

theorem lateByte_toNat (b : Bit) (x : Byte) : (lateByte b x).toNat = b.toNat * 128 + x.toNat / 2 := by
  have hx := x.isLt
  have hlow : x.toNat / 2 % 128 = x.toNat / 2 := by omega
  rw [lateByte, BitVec.toNat_cons', BitVec.extractLsb'_toNat, Nat.shiftRight_eq_div_pow, Nat.shiftLeft_eq]
  simp [hlow]

theorem byteBits_eq_take_append (x : Byte) : byteBits x = (byteBits x).take 7 ++ [x.getLsbD 0] := by
  simp [byteBits, List.range_succ]

theorem byteBits_lateByte (b : Bit) (x : Byte) : byteBits (lateByte b x) = b :: (byteBits x).take 7 := by
  simp [byteBits, lateByte, List.range_succ, BitVec.getLsbD_cons]

/-- The 24 samples of a late capture, written field by field. -/
theorem frameToBits_lateFrame (stray : Bit) (F : Frame) :
    frameToBits (lateFrame stray F) = stray :: (frameToBits F).take 23 := by
  have hlast : (frameToBits F).take 23 = byteBits F.preamble ++ byteBits F.payload ++ (byteBits F.checksum).take 7 := by
    simp [frameToBits, List.take_append, List.take_of_length_le]
  rw [hlast, byteBits_eq_take_append F.preamble, byteBits_eq_take_append F.payload]
  simp [frameToBits, lateFrame, byteBits_lateByte]

theorem bitsToFrame_late (stray : Bit) (F : Frame) :
    bitsToFrame (stray :: (frameToBits F).take 23) = validateFrame (lateFrame stray F) := by
  have h := assembleFrame_frameToBits (lateFrame stray F) []
  rw [List.append_nil, frameToBits_lateFrame] at h
  rw [bitsToFrame, h]

theorem Frame.eq_of_toNat_eq {F G : Frame} (hpre : F.preamble.toNat = G.preamble.toNat)
    (hpay : F.payload.toNat = G.payload.toNat) (hcks : F.checksum.toNat = G.checksum.toNat) : F = G := by
  cases F
  cases G
  simp only [Frame.mk.injEq, ← BitVec.toNat_inj]
  exact ⟨hpre, hpay, hcks⟩

/-- A command frame captured late, as numbers: halves, with the bits moved in worth 128. -/
theorem lateFrame_command_toNat (stray : Bit) {p : Byte} (hp : p.toNat ≤ 14) :
    (lateFrame stray ⟨0x55, p, 0x55 + p⟩).preamble.toNat = stray.toNat * 128 + 42 ∧
    (lateFrame stray ⟨0x55, p, 0x55 + p⟩).payload.toNat = 128 + p.toNat / 2 ∧
    (lateFrame stray ⟨0x55, p, 0x55 + p⟩).checksum.toNat = p.toNat % 2 * 128 + (85 + p.toNat) / 2 := by
  have hlsb : (p.getLsbD 0).toNat = p.toNat % 2 := by rw [BitVec.getLsbD, Nat.toNat_testBit, pow_zero, Nat.div_one]
  have hcks : (0x55 + p).toNat = 85 + p.toNat := by rw [BitVec.toNat_add_of_lt] <;> simp; omega
  have hpre : (0x55 : Byte).toNat / 2 = 42 := rfl
  have hpreLsb : ((0x55 : Byte).getLsbD 0).toNat * 128 = 128 := rfl
  simp only [lateFrame, lateByte_toNat, hpre, hpreLsb, hlsb, hcks, and_self]

/-- Behind a stray 1, a command frame of even payload is again a frame: its fields are those of the accepted capture. -/
theorem lateFrame_command_even {p : Byte} (hp : p.toNat ≤ 14) (heven : p.toNat % 2 = 0) :
    lateFrame true ⟨0x55, p, 0x55 + p⟩ = ⟨0xAA, 0x80 + p / 2, 0x2A + p / 2⟩ := by
  obtain ⟨hpre, hpay, hcks⟩ := lateFrame_command_toNat true hp
  refine Frame.eq_of_toNat_eq ?_ ?_ ?_
  · rw [hpre]; rfl
  · rw [hpay, BitVec.toNat_add, BitVec.toNat_udiv]; simp; omega
  · rw [hcks, BitVec.toNat_add, BitVec.toNat_udiv]; simp; omega

end Sys2Proof.Machine
end

section

open Sys2Proof Sys2Proof.Machine

/-- Settles O7: nothing is due but the poll, and the capture is the word. -/
theorem placedWordRunsNext : Obligations.PlacedWordRunsNext := fun s w _ h =>
  step_headEvent (withFetchWord_onlyEventsDue s 24 w) (withFetchWord_script s 24 w) (Nat.le_refl _)
    (eventInstr_asmPoll_captured (capturedInstr_withFetchWord s h))

/-- Settles O30: only the start of a frame writes the transmitter, and it needs the transmitter free. -/
theorem onlyResetDisturbsAFrameInFlight : Obligations.OnlyResetDisturbsAFrameInFlight := fun _ _ _ hbusy hi h =>
  exec_tx_busy hbusy hi h

/-- Settles O39: the accumulator is kept, or is the one AccWrite leaves. -/
theorem edgeWritesAtMostItsSlot : Obligations.EdgeWritesAtMostItsSlot := by
  intro s u t d h
  rcases exec_rxEdge_acc h with hkept | hwritten
  · rw [hkept]
    exact ⟨rfl, fun _ _ => rfl, fun _ _ => rfl⟩
  · rw [hwritten]
    exact ⟨accWrite_length .., fun _ hne => accWrite_other hne, fun _ hbeyond => accWrite_beyond hbeyond⟩

/-- Settles O54: each of the three instructions takes the same branch in both states, on the same registers. -/
theorem receiveSideIgnoresTheTransmitter : Obligations.ReceiveSideIgnoresTheTransmitter :=
  fun _ _ _ _ hi hcfg hrx hlatch h => exec_receiveSide hrx hlatch hcfg hi h

/-- Settles O4: the event is the head of the script. -/
theorem stepRunsTheNextEvent : Obligations.StepRunsTheNextEvent := fun _ _ _ _ honly hscript htime hi =>
  step_headEvent honly hscript htime hi

/-- Settles O5: the poll is the head of the script and asks for the captured word. -/
theorem pollStepRunsTheCapturedWord : Obligations.PollStepRunsTheCapturedWord :=
  fun _ _ _ _ _ _ honly hscript htime hcount hbytes hdec =>
    step_headEvent honly hscript htime (eventInstr_asmPoll_captured (capturedInstr_of_decode hcount hbytes hdec))

/-- Settles O24: the fields of the late frame are halves with the bits moved in, and the checksum test is arithmetic on
them. -/
theorem captureOneLateIsJudgedByChecksumAlone : Obligations.CaptureOneLateIsJudgedByChecksumAlone := by
  refine ⟨fun p hp heven => ?_, fun p hp => ⟨?_, fun hodd => ?_⟩⟩ <;> rw [bitsToFrame_late]
  · obtain ⟨hpre, hpay, hcks⟩ := lateFrame_command_toNat true hp
    rw [validateFrame_ok (by simp only [hpre, hpay, hcks, Bool.toNat_true]; omega), lateFrame_command_even hp heven]
  · obtain ⟨hpre, hpay, hcks⟩ := lateFrame_command_toNat false hp
    have hparity := Nat.mod_two_eq_zero_or_one p.toNat
    exact validateFrame_bad (by simp only [hpre, hpay, hcks, Bool.toNat_false]; omega)
  · obtain ⟨hpre, hpay, hcks⟩ := lateFrame_command_toNat true hp
    exact validateFrame_bad (by simp only [hpre, hpay, hcks, Bool.toNat_true]; omega)

/-- Settles O32: `txStep_frame` writes the new state as the old one with another transmitter and note. -/
theorem txStepTouchesOnlyTheTransmitter : Obligations.TxStepTouchesOnlyTheTransmitter := by
  intro s
  obtain ⟨m, heq, hframe, -⟩ := txStep_frame s
  refine ⟨?_, ?_, ?_, ?_, ?_, ?_, hframe, m, ?_⟩ <;> rw [heq]

/-- Settles O42: the count is below the threshold, and NoFrame raises no pulse output. -/
theorem incompleteCaptureIsNoFrame : Obligations.IncompleteCaptureIsNoFrame := by
  intro s hcount
  rw [exec_asmPoll_incomplete hcount, returning_quiet s rfl rfl rfl]

end

section
/-! PROOFS. The encoder against the decoder (30_encoding.md rules R80, R88, R93): the words the encoder writes are the
command rows and FRAME's, and each decodes to the instruction it was written from. -/

namespace Sys2Proof

open Machine

/-- Exactly the frame words have a word; an operation has none (rule R93). -/
theorem encodeWord_isSome (i : Instr) : (encodeWord i).isSome = i.isFrameWord := by cases i <;> rfl

/-- An encoding is a command row's, or FRAME's own. -/
theorem encodeWord_cases {i : Instr} {W : Word24} (h : encodeWord i = some W) :
    (W, i) ∈ commandRows ∨ ∃ p c, i = .frame p c ∧ W = Frame.word ⟨0x55, p, c⟩ := by
  cases i
  case frame p c => exact .inr ⟨p, c, rfl, (Option.some.inj h).symm⟩
  all_goals simp only [encodeWord, Option.some.injEq, reduceCtorEq] at h
  all_goals subst h; exact .inl (by decide)

/-- A command row's word has the transmit preamble and a command word's fields, and decodes to the row's command. -/
theorem commandRows_decode : ∀ row ∈ commandRows,
    (Frame.ofWord row.1).preamble = 0x55 ∧
      isCommandWord (Frame.ofWord row.1).payload (Frame.ofWord row.1).checksum = true ∧
      decodeWord row.1 = .ok row.2 := by decide

/-- A word with the transmit preamble decodes to FRAME unless it is a command word. -/
theorem decodeWord_frame {p c : Byte} (h : isCommandWord p c = false) :
    decodeWord (Frame.word ⟨0x55, p, c⟩) = .ok (.frame p c) := by
  have hfields := Frame.ofWord_word ⟨0x55, p, c⟩
  rcases decodeWord_cases (Frame.word ⟨0x55, p, c⟩) with ⟨i, hrow, -⟩ | ⟨p', c', -, hword, hdec⟩ | ⟨hpre, -⟩
  · obtain ⟨-, hcmd, -⟩ := commandRows_decode _ hrow
    rw [hfields, h] at hcmd
    nomatch hcmd
  · rw [hword, Frame.ofWord_word] at hfields
    cases hfields
    exact hdec
  · exact absurd (by rw [hfields]) hpre

/-- The decoder inverts the encoder, word by word. -/
theorem decodeWord_of_encodeWord {i : Instr} {W : Word24} (hwf : i.WellFormed) (h : encodeWord i = some W) :
    decodeWord W = .ok i := by
  rcases encodeWord_cases h with hrow | ⟨p, c, rfl, rfl⟩
  · obtain ⟨-, -, hdec⟩ := commandRows_decode _ hrow
    exact hdec
  · exact decodeWord_frame (by simpa [Instr.WellFormed, Instr.formError] using hwf)

/-- A decoded word has the transmit preamble. -/
theorem preamble_of_decodeWord {W : Word24} {i : Instr} (h : decodeWord W = .ok i) :
    (Frame.ofWord W).preamble = 0x55 := by
  obtain ⟨-, -, henc⟩ := decodeWord_ok h
  rcases encodeWord_cases henc with hrow | ⟨p, c, -, rfl⟩
  · exact (commandRows_decode _ hrow).1
  · rw [Frame.ofWord_word]

/-- The bytes of a word that decodes, with any others behind them, decode to the same and leave the others. -/
theorem decode_bytes_append {W : Word24} {i : Instr} (h : decodeWord W = .ok i) (rest : List Byte) :
    decode ((Frame.ofWord W).bytes ++ rest) = .ok (i, rest) := by
  have hword : Frame.word ⟨(Frame.ofWord W).preamble, (Frame.ofWord W).payload, (Frame.ofWord W).checksum⟩ = W :=
    Frame.word_ofWord W
  simp [Frame.bytes, decode, hword, h]

end Sys2Proof
end

section
/-! PROOFS. What the codec and the frame words do when executed (40_codec.md rules R102, R105; 43_assembler.md rule
R171), and the words whose sequence is accepted (30_encoding.md rule R86). -/

namespace Sys2Proof.Machine

theorem exec_encode_known {s : State} {c : Nat} {p : Byte} (h : s.cfg.cmdTable[c]? = some p) :
    exec (.encode c) s = .next { s with result := .encode (.ok ⟨0x55, p, checksum 0x55 p⟩) } := by
  simp [exec, execEncode, encodeCommand_known h, returning_quiet s (r := .encode _) rfl rfl rfl]

/-- FROM_BITS on a sequence of its domain: the validation's answer, whichever it is, is the result. -/
theorem exec_fromBits {bs : List Bit} (h : 24 ≤ bs.length) (s : State) :
    exec (.fromBits bs) s = .next { s with result := .decode (bitsToFrame bs) } := by
  have hlen : ¬ bs.length < 24 := Nat.not_lt.mpr h
  rcases hbits : bitsToFrame bs with F | _ <;>
    simp [exec, execFromBits, hlen, hbits, returning_quiet s (r := .decode _) rfl rfl rfl]

/-- An instruction with a word consumes the frame the word spells (log 3). -/
theorem exec_of_encodeWord {i : Instr} {F : Frame} (h : encodeWord i = some F.word) (s : State) :
    exec i s = .next (consume (validateFrame F) s) := by
  have hframe : i.isFrameWord = true := by rw [← encodeWord_isSome, h]; rfl
  obtain ⟨W, henc, hexec⟩ := exec_frameWord hframe
  rw [hexec, ← Option.some.inj (h.symm.trans henc), Machine.Frame.ofWord_word]

/-- An instruction whose word has the transmit preamble and the right checksum delivers the payload. -/
theorem exec_word_delivered {i : Instr} {p c : Byte} (h : encodeWord i = some (Frame.word ⟨0x55, p, c⟩))
    (hc : c.toNat = (0x55 + p.toNat) % 256) (s : State) :
    exec i s = .next { s with rx := { s.rx with bitCount := 0 }, latch := ⟨p, .ok⟩,
                              pulses := { s.pulses with rxOk := true }, result := .poll (.decoded ⟨0x55, p, c⟩) } := by
  rw [exec_of_encodeWord h, validateFrame_ok hc, consume_ok]

theorem validateFrame_ne_mismatch_iff (F : Frame) :
    validateFrame F ≠ .checksumMismatch ↔ F.checksum.toNat = (F.preamble.toNat + F.payload.toNat) % 256 := by
  by_cases h : F.checksum.toNat = (F.preamble.toNat + F.payload.toNat) % 256
  · simp [validateFrame_ok h, h]
  · simp [validateFrame_bad h, h]

/-- The low byte that the two high bytes of an accepted word call for. -/
def lowByteFor (high : Nat) : Nat := (high / 256 + high % 256) % 256

/-- A word's sequence is accepted exactly when the low byte is the sum of the other two. -/
theorem bitsToFrame_wireBits_ne_mismatch_iff {w : Nat} (hw : w < 2 ^ 24) :
    bitsToFrame (wireBits (BitVec.ofNat 24 w)) ≠ .checksumMismatch ↔ w % 256 = lowByteFor (w / 256) := by
  have hassemble := assembleFrame_wireBits (BitVec.ofNat 24 w) []
  rw [List.append_nil] at hassemble
  rw [bitsToFrame, hassemble, validateFrame_ne_mismatch_iff]
  simp only [Frame.ofWord, BitVec.extractLsb'_toNat, BitVec.toNat_ofNat, Nat.mod_eq_of_lt hw,
    Nat.shiftRight_eq_div_pow, lowByteFor]
  have hdiv : w / 256 / 256 = w / 2 ^ 16 := Nat.div_div_eq_div_mul w 256 256
  rw [hdiv]
  omega

/-- The accepted word of two given high bytes. -/
def acceptedWord (high : Nat) : Nat := 256 * high + lowByteFor high

theorem acceptedWord_div (high : Nat) : acceptedWord high / 256 = high := by
  unfold acceptedWord lowByteFor; omega

theorem acceptedWord_mod (high : Nat) : acceptedWord high % 256 = lowByteFor high := by
  unfold acceptedWord lowByteFor; omega

/-- The high bytes of an accepted word determine it, and may be any two. -/
theorem card_acceptedWords :
    ((Finset.range (2 ^ 24)).filter fun w => w % 256 = lowByteFor (w / 256)).card = 2 ^ 16 := by
  rw [← Finset.card_range (2 ^ 16)]
  refine Finset.card_bij' (fun w _ => w / 256) (fun high _ => acceptedWord high) (fun w hw => ?_) (fun high hhigh => ?_)
    (fun w hw => ?_) (fun high _ => acceptedWord_div high)
  · rw [Finset.mem_filter, Finset.mem_range] at hw
    rw [Finset.mem_range]
    omega
  · rw [Finset.mem_range] at hhigh
    have hdiv := acceptedWord_div high
    rw [Finset.mem_filter, Finset.mem_range, hdiv]
    exact ⟨by omega, acceptedWord_mod high⟩
  · rw [Finset.mem_filter] at hw
    rw [acceptedWord, ← hw.2]
    omega

end Sys2Proof.Machine
end

section

open Sys2Proof Sys2Proof.Machine

/-- Settles O2: `decodeWord_of_encodeWord` at the bytes of the word, and `encodeWord_isSome`. -/
theorem decodeInvertsEncode : Obligations.DecodeInvertsEncode := by
  refine ⟨fun i bytes rest hwf henc => ?_, fun i hframe => ?_, fun i hop => ?_⟩
  · obtain ⟨W, hword, rfl⟩ := Option.map_eq_some_iff.mp henc
    exact decode_bytes_append (decodeWord_of_encodeWord hwf hword) rest
  · obtain ⟨W, hword⟩ := Option.isSome_iff_exists.mp ((encodeWord_isSome i).trans hframe)
    exact ⟨_, by rw [encode, hword]; rfl, rfl⟩
  · have hnone : encodeWord i = none := by simpa using (encodeWord_isSome i).trans hop
    rw [encode, hnone]; rfl

/-- Settles O3: the decoder's three answers, of which only the rejection has another preamble. -/
theorem exactlyTransmitPreamblesDecode : Obligations.ExactlyTransmitPreamblesDecode := by
  intro W
  refine ⟨fun ⟨i, hdec⟩ => preamble_of_decodeWord hdec, fun hpre => ?_⟩
  rcases decodeWord_cases W with ⟨i, -, hdec⟩ | ⟨p, c, -, -, hdec⟩ | ⟨hother, -⟩
  · exact ⟨i, hdec⟩
  · exact ⟨_, hdec⟩
  · exact absurd hpre hother

/-- Settles O6: the captured word spells the frame of slots 0 to 23, which the poll validates and consumes too. -/
theorem capturedWordActsAsPoll : Obligations.CapturedWordActsAsPoll := by
  intro s i h
  obtain ⟨hcount, hlen, hdec⟩ := captured_cases h
  obtain ⟨-, -, henc⟩ := decodeWord_ok hdec
  rw [exec_of_encodeWord henc, exec_asmPoll_complete hcount hlen, bitsToFrame]

/-- Settles O19: the fields are `fieldAt`'s sums, and the validation is the checksum test on them. -/
theorem fromBitsAssemblesAndChecks : Obligations.FromBitsAssemblesAndChecks := by
  intro s bs hlen
  refine ⟨fieldAt bs 0, fieldAt bs 8, fieldAt bs 16, by simpa using fieldAt_toNat bs 0, fieldAt_toNat bs 8,
    fieldAt_toNat bs 16, ?_⟩
  rw [exec_fromBits hlen, bitsToFrame, assembleFrame]
  split
  next hsum => rw [validateFrame_ok hsum]
  next hsum => rw [validateFrame_bad hsum]

/-- Settles O23: the low byte of an accepted word is the one its two high bytes call for, and these are free. -/
theorem acceptedWordsAreCounted : Obligations.AcceptedWordsAreCounted := by
  unfold Obligations.AcceptedWordsAreCounted
  rw [Finset.filter_congr fun w hw => bitsToFrame_wireBits_ne_mismatch_iff (Finset.mem_range.mp hw)]
  exact card_acceptedWords

/-- Settles O1: the decoder is run on the eight words. -/
theorem tableWordsDecodeAsPrinted : Obligations.TableWordsDecodeAsPrinted := by
  unfold Obligations.TableWordsDecodeAsPrinted
  decide

/-- Settles O16: the frame is the table's, with its checksum. -/
theorem encodeReturnsTheTableFrame : Obligations.EncodeReturnsTheTableFrame := fun _ _ p h =>
  ⟨checksum 0x55 p, checksum_toNat 0x55 p, exec_encode_known h⟩

/-- Settles O46: every row's fields spell its word, with the right checksum. -/
theorem commandWordsDeliverTheirPayload : Obligations.CommandWordsDeliverTheirPayload := by
  intro s row hrow
  obtain ⟨hword, hcks⟩ : encodeWord row.1 = some (Frame.word ⟨0x55, row.2.1, row.2.2⟩) ∧
      row.2.2.toNat = (0x55 + row.2.1.toNat) % 256 := by
    revert row
    decide
  exact exec_word_delivered hword hcks s

/-- Settles O47: FRAME's word is consumed, and the validation is the checksum test. -/
theorem frameWordIsDeliveredOrDiscarded : Obligations.FrameWordIsDeliveredOrDiscarded := by
  intro s p c
  refine ⟨fun hc => exec_word_delivered rfl hc s, fun hc => ?_⟩
  rw [exec_of_encodeWord (F := ⟨0x55, p, c⟩) rfl, validateFrame_bad hc, consume_bad]

end

section
/-! PROOFS. The codec's operations and their domains (40_codec.md rules R100, R104, R105, R107): the bits of a serialised
frame, the two directions of the round trip, and a single inverted bit, which changes one field alone. -/

namespace Sys2Proof.Machine

theorem exec_checksum (a b : Byte) (s : State) :
    exec (.checksum a b) s = .next { s with result := .byte (checksum a b) } := by
  simp [exec, execChecksum, returning_quiet s (r := .byte _) rfl rfl rfl]

theorem exec_toBits (F : Frame) (s : State) :
    exec (.toBits F) s = .next { s with result := .bits (frameToBits F) } := by
  simp [exec, execToBits, returning_quiet s (r := .bits _) rfl rfl rfl]

theorem exec_fromBits_short {bs : List Bit} (h : bs.length < 24) (s : State) :
    exec (.fromBits bs) s = .refused .fromBitsTooShort := by
  simp [exec, execFromBits, h]

theorem exec_timing_zero (s : State) : exec (.timing 0) s = .refused .baudZero := rfl

theorem exec_reset_baudZero {s : State} (h : s.cfg.baud = 0) : exec .reset s = .refused .baudZero := by
  simp [exec, execReset, h]

/-- Executing instructions, none of them able to write a parameter, keeps the parameters (10_state.md rule R21). -/
theorem execAll_cfg (l : List Instr) {s t : State} (h : execAll l s = .next t) : t.cfg = s.cfg := by
  induction l generalizing s with
  | nil => cases h; rfl
  | cons i l ih =>
    rw [execAll] at h
    split at h
    next u hu => rw [ih h, exec_cfg hu]
    all_goals nomatch h

/-! ## The bits of a serialised frame -/

theorem frameToBits_preamble (F : Frame) {k : Nat} (h : k < 8) :
    (frameToBits F)[k]? = some (F.preamble.getLsbD (7 - k)) := by
  rw [frameToBits, List.append_assoc, List.getElem?_append_left (by simpa), byteBits_get _ h]

theorem frameToBits_payload (F : Frame) {k : Nat} (h : k < 8) :
    (frameToBits F)[8 + k]? = some (F.payload.getLsbD (7 - k)) := by
  rw [frameToBits, List.append_assoc, List.getElem?_append_right (by simp),
    List.getElem?_append_left (by simpa), byteBits_length, Nat.add_sub_cancel_left, byteBits_get _ h]

theorem frameToBits_checksum (F : Frame) {k : Nat} (h : k < 8) :
    (frameToBits F)[16 + k]? = some (F.checksum.getLsbD (7 - k)) := by
  rw [frameToBits, List.getElem?_append_right (by simp), List.length_append, byteBits_length, byteBits_length,
    Nat.add_sub_cancel_left, byteBits_get _ h]

theorem frameToBits_word (F : Frame) {k : Nat} (h : k < 24) :
    (frameToBits F)[k]? = some (F.word.getLsbD (23 - k)) := by
  rw [← wireBits_word]
  simp [wireBits, wireBit, h]

/-! ## The round trip -/

theorem bitsToFrame_frameToBits {F : Frame} (h : F.checksum.toNat = (F.preamble.toNat + F.payload.toNat) % 256) :
    bitsToFrame (frameToBits F) = .ok F := by
  have hassemble := assembleFrame_frameToBits F []
  rw [List.append_nil] at hassemble
  rw [bitsToFrame, hassemble, validateFrame_ok h]

/-- An accepted sequence is the serialisation of the frame it is accepted as. -/
theorem frameToBits_of_bitsToFrame {bs : List Bit} {F : Frame} (hlen : bs.length = 24) (h : bitsToFrame bs = .ok F) :
    frameToBits F = bs := by
  obtain ⟨rfl, -⟩ := validateFrame_eq_ok h
  exact frameToBits_assembleFrame hlen

theorem bitsToFrame_of_exec_fromBits {bs : List Bit} {s t : State} {r : FrameResult} (hlen : 24 ≤ bs.length)
    (h : exec (.fromBits bs) s = .next t) (hr : t.result = .decode r) : bitsToFrame bs = r := by
  rw [exec_fromBits hlen, Host.Outcome.next.injEq] at h
  rw [← h] at hr
  exact OpResult.decode.inj hr

/-! ## A single inverted bit -/

/-- A field does not read a bit outside it. -/
theorem fieldAt_set_outside (bs : List Bit) {k m : Nat} (b : Bit) (h : k < m ∨ m + 8 ≤ k) :
    fieldAt (bs.set k b) m = fieldAt bs m := by
  refine fieldAt_congr fun j hj => ?_
  have hne : k ≠ m + j := by omega
  rw [List.getD_eq_getElem?_getD, List.getD_eq_getElem?_getD, List.getElem?_set_ne hne]

/-- The three ways in which two frames can agree in all fields but one. -/
inductive AgreeButOne (F G : Frame) : Prop where
  | preamble (hpay : F.payload = G.payload) (hcks : F.checksum = G.checksum)
  | payload (hpre : F.preamble = G.preamble) (hcks : F.checksum = G.checksum)
  | checksum (hpre : F.preamble = G.preamble) (hpay : F.payload = G.payload)

/-- Any two fields of a frame that satisfies the checksum invariant determine the third (rule R101). -/
theorem AgreeButOne.eq {F G : Frame} (h : AgreeButOne F G)
    (hF : F.checksum.toNat = (F.preamble.toNat + F.payload.toNat) % 256)
    (hG : G.checksum.toNat = (G.preamble.toNat + G.payload.toNat) % 256) : F = G := by
  have hFpre := F.preamble.isLt
  have hGpre := G.preamble.isLt
  have hFpay := F.payload.isLt
  have hGpay := G.payload.isLt
  cases h with
  | preamble hpay hcks =>
    rw [hpay, hcks] at hF
    exact Frame.eq_of_toNat_eq (by omega) (by rw [hpay]) (by rw [hcks])
  | payload hpre hcks =>
    rw [hpre, hcks] at hF
    exact Frame.eq_of_toNat_eq (by rw [hpre]) (by omega) (by rw [hcks])
  | checksum hpre hpay =>
    rw [hpre, hpay] at hF
    exact Frame.eq_of_toNat_eq (by rw [hpre]) (by rw [hpay]) (by omega)

/-- A bit of a sequence is read by one field at most. -/
theorem assembleFrame_set (bs : List Bit) (k : Nat) (b : Bit) :
    AgreeButOne (assembleFrame (bs.set k b)) (assembleFrame bs) := by
  rcases Nat.lt_or_ge k 8 with h8 | h8
  · exact .preamble (fieldAt_set_outside bs b (by omega)) (fieldAt_set_outside bs b (by omega))
  · rcases Nat.lt_or_ge k 16 with h16 | h16
    · exact .payload (fieldAt_set_outside bs b (by omega)) (fieldAt_set_outside bs b (by omega))
    · exact .checksum (fieldAt_set_outside bs b (by omega)) (fieldAt_set_outside bs b (by omega))

/-- No sequence that differs from an accepted one in a single bit is accepted. -/
theorem bitsToFrame_set_not {bs : List Bit} {F : Frame} {k : Nat} {b : Bit} (hlen : bs.length = 24)
    (hk : bs[k]? = some b) (h : bitsToFrame bs = .ok F) : bitsToFrame (bs.set k (!b)) = .checksumMismatch := by
  rcases hset : bitsToFrame (bs.set k (!b)) with G | _
  · obtain ⟨-, hF⟩ := validateFrame_eq_ok h
    obtain ⟨-, hG⟩ := validateFrame_eq_ok hset
    have hsame : bs.set k (!b) = bs := by
      rw [← frameToBits_assembleFrame (s := bs.set k (!b)) (by simpa), (assembleFrame_set bs k (!b)).eq hG hF,
        frameToBits_assembleFrame hlen]
    have hlt : k < bs.length := (List.getElem?_eq_some_iff.mp hk).1
    have hbit : some (!b) = some b := by rw [← List.getElem?_set_self hlt, hsame, hk]
    simp at hbit
  · rfl

/-! ## A capture that begins with a serialised frame -/

/-- A poll of a complete capture whose first 24 slots serialise a valid frame delivers the frame. -/
theorem exec_asmPoll_frame {s : State} {F : Frame} (hcount : s.cfg.frameThreshold ≤ s.rx.bitCount)
    (hlen : 24 ≤ s.rx.acc.length) (hacc : s.rx.acc.take 24 = frameToBits F)
    (hF : F.checksum.toNat = (F.preamble.toNat + F.payload.toNat) % 256) :
    exec .asmPoll s = .next (consume (.ok F) s) := by
  rw [exec_asmPoll_complete hcount hlen, hacc, bitsToFrame_frameToBits hF]

end Sys2Proof.Machine
end

section

open Sys2Proof Sys2Proof.Machine

/-- Settles O18: the result is `frameToBits F`, read field by field and as the wire bits of the word. -/
theorem toBitsSerialisesMsbFirst : Obligations.ToBitsSerialisesMsbFirst := fun s F =>
  ⟨frameToBits F, exec_toBits F s, frameToBits_length F,
    fun _ hk => ⟨frameToBits_preamble F hk, frameToBits_payload F hk, frameToBits_checksum F hk⟩,
    fun _ hk => frameToBits_word F hk⟩

/-- Settles O21: `frameToBits` and `bitsToFrame` undo each other, on valid frames and on accepted sequences. -/
theorem codecRoundTrip : Obligations.CodecRoundTrip := by
  refine ⟨fun s t F bs hF hto hbs => ?_, fun s t F bs hlen hfrom hok => ?_⟩
  · rw [exec_toBits, Host.Outcome.next.injEq] at hto
    rw [← hto] at hbs
    obtain rfl : frameToBits F = bs := OpResult.bits.inj hbs
    rw [exec_fromBits (frameToBits_length F).ge, bitsToFrame_frameToBits hF]
  · rw [exec_toBits, frameToBits_of_bitsToFrame hlen (bitsToFrame_of_exec_fromBits hlen.ge hfrom hok)]

/-- Settles O22: the inverted bit is in one field alone, and two accepted frames cannot differ in one field alone. -/
theorem everySingleBitErrorIsDetected : Obligations.EverySingleBitErrorIsDetected := by
  intro s bs F k b hlen hk hok
  have haccepted : bitsToFrame bs = .ok F := bitsToFrame_of_exec_fromBits hlen.ge hok rfl
  rw [exec_fromBits (by simp [hlen]), bitsToFrame_set_not hlen hk haccepted]

/-- Settles O44: the edges fill slots 0 to 23 with the frame's bits (O40), and the poll consumes them. -/
theorem sentFrameIsReceived : Obligations.SentFrameIsReceived := by
  intro s F edges others hen hstart hwf hcap hthr hgap hF hsamples
  obtain ⟨u, hrun, hcount, hslots, -, hlen, -⟩ := edgesFillTheAccumulatorInOrder s edges hen hstart hwf hgap
  have hedges : 24 ≤ edges.length := by
    rw [← List.length_map (f := Prod.snd), hsamples, List.length_append, frameToBits_length]
    omega
  have hacc : u.rx.acc.take 24 = frameToBits F := by
    have htake : (edges.map Prod.snd).take 24 = frameToBits F := by rw [hsamples, List.take_left' (by simp)]
    rw [← htake]
    refine List.ext_getElem? fun k => ?_
    rw [List.getElem?_take, List.getElem?_take]
    split
    next hk => exact hslots k (by omega)
    next => rfl
  have hpoll : exec .asmPoll u = .next (consume (.ok F) u) :=
    exec_asmPoll_frame (by rwa [execAll_cfg _ hrun, hcount]) (by rw [hlen, hwf]; exact hcap) hacc hF
  refine ⟨consume (.ok F) u, ?_, rfl, rfl, rfl⟩
  rw [execAll_append _ hrun, execAll, hpoll]
  rfl

/-- Settles O15: the byte is `checksum a b`. -/
theorem checksumReturnsTheLowByte : Obligations.ChecksumReturnsTheLowByte := fun s a b =>
  ⟨checksum a b, checksum_toNat a b, exec_checksum a b s⟩

/-- Settles O20: one refusal for each form outside its operation's domain. -/
theorem shortSequencesAndBaudZeroAreRefused : Obligations.ShortSequencesAndBaudZeroAreRefused :=
  ⟨fun s _ h => exec_fromBits_short h s, exec_timing_zero, fun _ h => exec_reset_baudZero h⟩

end

section
/-! PROOFS. The waveform (41_transmitter.md rules R127, R128), bit by bit: `beforeBit` is the transmitter when a bit is
about to start, and four TX_STEPs take it from one bit to the next. -/

namespace Sys2Proof.Machine

@[simp] theorem carryData_script (v : Bit) (s : State) : (carryData v s).script = s.env.script := by
  obtain ⟨m, h, -⟩ := carryData_eq v s
  rw [h]

@[simp] theorem txStep_timing (s : State) : (txStep s).timing = s.timing := by
  obtain ⟨m, h, -⟩ := txStep_frame s
  rw [h]

/-- The transmitter in the phase at whose end, the instant `S`, bit `k` starts: PORCH before the first bit, LOW of the
bit before any other. -/
def beforeBit (W : Word24) (S : Nat) : Nat → TxState
  | 0 => ⟨W, true, .porch, 0, S, false, false⟩
  | k + 1 => ⟨W, true, .low, k, S, false, false⟩

@[simp] theorem beforeBit_deadline (W : Word24) (S k : Nat) : (beforeBit W S k).deadline = S := by cases k <;> rfl
@[simp] theorem beforeBit_clockOut (W : Word24) (S k : Nat) : (beforeBit W S k).clockOut = false := by cases k <;> rfl

theorem beforeBit_phase (W : Word24) (S k : Nat) :
    (beforeBit W S k).phase ≠ .idle ∧ (beforeBit W S k).phase ≠ .setup := by
  cases k <;> simp [beforeBit]

section
variable {t : State} {W : Word24} {k D : Nat} {c d : Bit}

theorem txStep_tx_setup (h : t.tx = ⟨W, true, .setup, k, D, c, d⟩) :
    (txStep t).tx = ⟨W, true, .high, k, D + t.timing.halfCycle, true, d⟩ := by
  rw [txStep_setup (by rw [h]), h]

theorem txStep_tx_high (h : t.tx = ⟨W, true, .high, k, D, c, d⟩) :
    (txStep t).tx = ⟨W, true, .fall, k, D + 100, false, d⟩ := by
  rw [txStep_high (by rw [h]), h]

theorem txStep_tx_fall (h : t.tx = ⟨W, true, .fall, k, D, false, d⟩) :
    (txStep t).tx = beforeBit W (D + t.timing.halfCycle) (k + 1) := by
  rw [txStep_fall (by rw [h]), h]
  rfl

theorem txStep_tx_beforeBit (hk : k < 24) (h : t.tx = beforeBit W D k) :
    (txStep t).tx = ⟨W, true, .setup, k, D + 100, false, wireBit W k⟩ := by
  cases k with
  | zero => rw [txStep_porch (by rw [h]; rfl), h]; rfl
  | succ k => rw [txStep_low_next (by rw [h]; rfl) (by rw [h]; exact Nat.lt_of_succ_lt_succ hk), h]; rfl

/-- After the last bit comes the rest state (rule R127, LOW, else branch). -/
theorem txStep_tx_beforeBit_last (h : t.tx = beforeBit W D 24) :
    (txStep t).tx = ⟨W, false, .idle, 23, D, true, true⟩ := by
  rw [txStep_low_last (by rw [h]; rfl) (by rw [h]; exact Nat.lt_irrefl 23), h]
  rfl

/-- The four phases of one bit (rule R128). -/
theorem txStep_bit (hk : k < 24) (h : t.tx = beforeBit W D k) :
    (txStep^[1] t).tx = ⟨W, true, .setup, k, D + 100, false, wireBit W k⟩ ∧
    (txStep^[2] t).tx = ⟨W, true, .high, k, D + 100 + t.timing.halfCycle, true, wireBit W k⟩ ∧
    (txStep^[3] t).tx = ⟨W, true, .fall, k, D + 200 + t.timing.halfCycle, false, wireBit W k⟩ ∧
    (txStep^[4] t).tx = beforeBit W (D + (200 + 2 * t.timing.halfCycle)) (k + 1) := by
  have hsetup := txStep_tx_beforeBit hk h
  have hhigh := txStep_tx_setup hsetup
  have hfall := txStep_tx_high hhigh
  have hlow := txStep_tx_fall hfall
  simp only [txStep_timing] at hhigh hfall hlow
  have hfallEnd : D + 100 + t.timing.halfCycle + 100 = D + 200 + t.timing.halfCycle := by omega
  have hlowEnd : D + 100 + t.timing.halfCycle + 100 + t.timing.halfCycle = D + (200 + 2 * t.timing.halfCycle) := by
    omega
  rw [hfallEnd] at hfall
  rw [hlowEnd] at hlow
  exact ⟨hsetup, hhigh, hfall, hlow⟩

end

section
variable {u : State} {W : Word24} {T : Nat}

theorem txStep_iterate_timing (n : Nat) (u : State) : (txStep^[n] u).timing = u.timing := by
  induction n with
  | zero => rfl
  | succ n ih => rw [Function.iterate_succ_apply', txStep_timing, ih]

variable (h : u.tx = beforeBit W T 0)
include h

/-- Bit `k` starts `k` bit periods after the first (rule R128). -/
theorem txStep_iterate_beforeBit {k : Nat} (hk : k ≤ 24) :
    (txStep^[4 * k] u).tx = beforeBit W (T + k * (200 + 2 * u.timing.halfCycle)) k := by
  induction k with
  | zero => simpa using h
  | succ k ih =>
    obtain ⟨-, -, -, hnext⟩ := txStep_bit hk (ih (Nat.le_of_succ_le hk))
    rw [← Function.iterate_add_apply, txStep_iterate_timing] at hnext
    rw [show 4 * (k + 1) = 4 + 4 * k by omega, hnext, Nat.add_assoc, ← Nat.succ_mul]

/-- The phases of bit `k`, counted from the start of the frame. -/
theorem txStep_iterate_bit {k : Nat} (hk : k < 24) {S : Nat} (hS : S = T + k * (200 + 2 * u.timing.halfCycle)) :
    (txStep^[4 * k + 1] u).tx = ⟨W, true, .setup, k, S + 100, false, wireBit W k⟩ ∧
    (txStep^[4 * k + 2] u).tx = ⟨W, true, .high, k, S + 100 + u.timing.halfCycle, true, wireBit W k⟩ ∧
    (txStep^[4 * k + 3] u).tx = ⟨W, true, .fall, k, S + 200 + u.timing.halfCycle, false, wireBit W k⟩ ∧
    (txStep^[4 * k + 4] u).tx = beforeBit W (S + (200 + 2 * u.timing.halfCycle)) (k + 1) := by
  subst hS
  have hbit := txStep_bit hk (txStep_iterate_beforeBit h hk.le)
  simpa only [← Function.iterate_add_apply, txStep_iterate_timing, Nat.add_comm _ (4 * k)] using hbit

/-- TX_STEP number 97 enters the rest state. -/
theorem txStep_iterate_rest :
    (txStep^[97] u).tx = ⟨W, false, .idle, 23, T + 24 * (200 + 2 * u.timing.halfCycle), true, true⟩ := by
  have hlast := txStep_tx_beforeBit_last (txStep_iterate_beforeBit h (Nat.le_refl 24))
  rwa [← Function.iterate_succ_apply' txStep (4 * 24) u] at hlast

/-- The frame is in flight until then. -/
theorem txStep_iterate_inFlight {j : Nat} (hj : j < 97) : (txStep^[j] u).tx.phase ≠ .idle := by
  obtain ⟨k, i, hi, rfl⟩ : ∃ k i, i < 4 ∧ j = 4 * k + i := ⟨j / 4, j % 4, Nat.mod_lt _ (by omega), by omega⟩
  rcases Nat.eq_zero_or_pos i with rfl | hpos
  · rw [Nat.add_zero, txStep_iterate_beforeBit h (by omega)]
    exact (beforeBit_phase ..).1
  · obtain ⟨hsetup, hhigh, hfall, -⟩ := txStep_iterate_bit h (k := k) (by omega) rfl
    obtain rfl | rfl | rfl : i = 1 ∨ i = 2 ∨ i = 3 := by omega
    · rw [hsetup]; nofun
    · rw [hhigh]; nofun
    · rw [hfall]; nofun

end

end Sys2Proof.Machine
end

section
/-! PROOFS. The host's requests (41_transmitter.md rules R120, R123, R124): TIMING, TX_FRAME free and busy, and SEND of
a known command, which is a TX_FRAME. -/

namespace Sys2Proof.Machine

theorem exec_txFrame_busy {s : State} (h : s.tx.busy = true) (W : Word24) :
    exec (.txFrame W) s = .next { s with result := .send .busy } := by
  simp [exec, execTxFrame, requestFrame_busy h, returning_quiet s (r := .send .busy) rfl rfl rfl]

theorem exec_txFrame_free {s : State} (h : s.tx.busy = false) (W : Word24) :
    exec (.txFrame W) s = .next { startFrame W s with result := .send .started } := by
  simp [exec, execTxFrame, requestFrame_free h, returning_quiet (startFrame W s) (r := .send .started) rfl rfl rfl]

/-- SEND of a command in the table is TX_FRAME of its frame word (rule R123). -/
theorem exec_send_known {s : State} {c : Nat} {p : Byte} (h : s.cfg.cmdTable[c]? = some p) :
    exec (.send c) s = exec (.txFrame (Frame.word ⟨0x55, p, checksum 0x55 p⟩)) s := by
  simp [exec, execSend, execTxFrame, encodeCommand_known h]

theorem exec_timing {b : Nat} (h : 1 ≤ b) (s : State) :
    exec (.timing b) s = .next { s with result := .timing (timingOf b) } := by
  have hb : b ≠ 0 := Nat.ne_of_gt h
  simp [exec, execTiming, hb, returning_quiet s (r := .timing _) rfl rfl rfl]

end Sys2Proof.Machine
end

section

open Sys2Proof Sys2Proof.Machine

/-- Settles O31: TX_FRAME leaves `beforeBit` of bit 0, and the iterates of TX_STEP follow bit by bit. -/
theorem waveformFollowsTheSchedule : Obligations.WaveformFollowsTheSchedule := by
  intro s u W hfree hstart
  obtain rfl := Host.Outcome.next.inj ((exec_txFrame_free hfree W).symm.trans hstart)
  have hporch : ({ startFrame W s with result := .send .started } : State).tx =
      beforeBit W (s.env.now + s.timing.frontPorch) 0 := rfl
  refine ⟨fun k hk S H hS hH => ?_, txStep_iterate_rest hporch⟩
  obtain ⟨hsetup, hhigh, hfall, hlow⟩ := txStep_iterate_bit hporch hk hS
  subst hH
  refine ⟨hsetup, hhigh, hfall, hlow.trans ?_⟩
  rw [← Nat.add_assoc]
  rfl

/-- Settles O27: the started state, written out. -/
theorem txFrameStartsWhenFree : Obligations.TxFrameStartsWhenFree := fun _ W hfree => exec_txFrame_free hfree W

/-- Settles O28: SEND is TX_FRAME of the table's frame word. -/
theorem sendStartsTheTableFrame : Obligations.SendStartsTheTableFrame := fun _ _ p hfree hp =>
  ⟨checksum 0x55 p, _, checksum_toNat 0x55 p, rfl, (exec_send_known hp).trans (exec_txFrame_free hfree _)⟩

/-- Settles O29: the request is dropped, and SEND of a command in the table is such a request. -/
theorem requestWhileBusyIsDropped : Obligations.RequestWhileBusyIsDropped := fun _ hbusy =>
  ⟨exec_txFrame_busy hbusy, fun _ hc =>
    (exec_send_known (List.getElem?_eq_getElem hc)).trans (exec_txFrame_busy hbusy _)⟩

/-- Settles O25: the profile is `timingOf b`. -/
theorem timingReturnsTheProfile : Obligations.TimingReturnsTheProfile := fun s _ h => exec_timing h s

/-- Settles O11: the TX_STEP is due, and neither of the two agents before it is. -/
theorem txStepIsTakenAtTheDeadline : Obligations.TxStepIsTakenAtTheDeadline := fun s hr hedge hphase hnow =>
  step_tx hr hedge (by simp [txDue, hphase, hnow])

end

section
/-! PROOFS. From one phase of a frame to the next (41_transmitter.md rule R127): a good state reached by steps is good
and has the same parameters, and where every phase is followed by the transmitter's next, the rest state is reached. -/

namespace Sys2Proof.Machine

/-- `v` is reached from `s` in at most `N` steps. -/
def ReachesWithin (N : Nat) (s v : State) : Prop := ∃ n ≤ N, stepN n s = .next v

/-- `v` is reached from `s`. -/
def Reaches (s v : State) : Prop := ∃ n, stepN n s = .next v

theorem ReachesWithin.refl (s : State) : ReachesWithin 0 s s := ⟨0, Nat.le_refl 0, rfl⟩

theorem ReachesWithin.trans {N M : Nat} {s v w : State} (h : ReachesWithin N s v) (h' : ReachesWithin M v w) :
    ReachesWithin (N + M) s w := by
  obtain ⟨n, hn, hrun⟩ := h
  obtain ⟨m, hm, hrun'⟩ := h'
  exact ⟨n + m, Nat.add_le_add hn hm, (stepN_add hrun).trans hrun'⟩

theorem ReachesWithin.reaches {N : Nat} {s v : State} (h : ReachesWithin N s v) : Reaches s v := by
  obtain ⟨n, -, hrun⟩ := h
  exact ⟨n, hrun⟩

theorem Reaches.refl (s : State) : Reaches s s := ⟨0, rfl⟩

theorem Reaches.trans {s v w : State} (h : Reaches s v) (h' : Reaches v w) : Reaches s w := by
  obtain ⟨n, hrun⟩ := h
  obtain ⟨m, hrun'⟩ := h'
  exact ⟨n + m, (stepN_add hrun).trans hrun'⟩

theorem ReachesWithin.of_step {s v : State} (h : step s = .next v) : ReachesWithin 1 s v :=
  ⟨1, Nat.le_refl 1, by simp only [stepN, h]⟩

theorem Reaches.of_step {s v : State} (h : step s = .next v) : Reaches s v := (ReachesWithin.of_step h).reaches

/-- What every step keeps, steps keep. -/
theorem Reaches.inv_cfg {s v : State} (h : Reaches s v) (hs : s.Inv) : v.Inv ∧ v.cfg = s.cfg := by
  obtain ⟨n, hrun⟩ := h
  induction n generalizing s with
  | zero =>
    obtain rfl := Host.Outcome.next.inj hrun
    exact ⟨hs, rfl⟩
  | succ n ih =>
    simp only [stepN] at hrun
    split at hrun
    next t ht =>
      obtain ⟨hv, hcfg⟩ := ih (stepKeepsGoodStates s t hs ht) hrun
      exact ⟨hv, hcfg.trans (step_cfg ht)⟩
    all_goals nomatch hrun

/-- The profile of a good state is its BAUD's. -/
theorem State.Inv.timing_eq {s t : State} (hs : s.Inv) (ht : t.Inv) (hcfg : t.cfg = s.cfg) : t.timing = s.timing := by
  obtain ⟨-, hs, -⟩ := hs
  obtain ⟨-, ht, -⟩ := ht
  rw [ht, hs, hcfg]

/-- The state a frame starts in, from a good state with a free transmitter. -/
theorem exec_txFrame_start {s u : State} {W : Word24} (hs : s.Inv) (hfree : s.tx.busy = false)
    (h : exec (.txFrame W) s = .next u) :
    u = { startFrame W s with result := .send .started } ∧ u.Inv ∧
      u.tx = beforeBit W (s.env.now + s.timing.frontPorch) 0 := by
  obtain rfl := Host.Outcome.next.inj ((exec_txFrame_free hfree W).symm.trans h)
  exact ⟨rfl, exec_keeps_inv (by simp) h hs, rfl⟩

/-- If from every state of a frame in flight the next phase is reached, `P` counting the phases, then from the start of
a frame the rest state is reached, at the end of bit 23. -/
theorem reaches_rest {u : State} {W : Word24} {T : Nat} {P : Nat → State → Prop} (hu : u.Inv)
    (hstart : u.tx = beforeBit W T 0) (h0 : P 0 u)
    (hphase : ∀ j t, t.Inv → t.tx.phase ≠ .idle → P j t →
      ∃ v, Reaches t v ∧ v.tx = (txStep t).tx ∧ v.env.now = t.tx.deadline ∧ P (j + 1) v) :
    ∃ v, Reaches u v ∧ v.tx = ⟨W, false, .idle, 23, T + 24 * (200 + 2 * u.timing.halfCycle), true, true⟩ ∧
      v.env.now = T + 24 * (200 + 2 * u.timing.halfCycle) ∧ P 97 v := by
  have hnext (j : Nat) (hj : j < 97) (t : State) (hreach : Reaches u t) (htx : t.tx = (txStep^[j] u).tx) (hP : P j t) :
      ∃ v, Reaches u v ∧ v.tx = (txStep^[j + 1] u).tx ∧ v.env.now = t.tx.deadline ∧ P (j + 1) v := by
    obtain ⟨ht, hcfg⟩ := hreach.inv_cfg hu
    have htiming : t.timing = (txStep^[j] u).timing := (hu.timing_eq ht hcfg).trans (txStep_iterate_timing j u).symm
    obtain ⟨v, hreach', htx', hnow, hP'⟩ := hphase j t ht (by rw [htx]; exact txStep_iterate_inFlight hstart hj) hP
    refine ⟨v, hreach.trans hreach', ?_, hnow, hP'⟩
    rw [htx', txStep_tx_congr htx htiming, ← Function.iterate_succ_apply' txStep]
  have hrun (j : Nat) (hj : j < 97) : ∃ t, Reaches u t ∧ t.tx = (txStep^[j] u).tx ∧ P j t := by
    induction j with
    | zero => exact ⟨u, .refl u, rfl, h0⟩
    | succ j ih =>
      obtain ⟨t, hreach, htx, hP⟩ := ih (Nat.lt_of_succ_lt hj)
      obtain ⟨v, hreach', htx', -, hP'⟩ := hnext j (Nat.lt_of_succ_lt hj) t hreach htx hP
      exact ⟨v, hreach', htx', hP'⟩
  obtain ⟨t, hreach, htx, hP⟩ := hrun 96 (by omega)
  obtain ⟨v, hreach', htx', hnow, hP'⟩ := hnext 96 (by omega) t hreach htx hP
  rw [txStep_iterate_beforeBit hstart (k := 24) (Nat.le_refl 24)] at htx
  exact ⟨v, hreach', htx'.trans (txStep_iterate_rest hstart), by rw [hnow, htx, beforeBit_deadline], hP'⟩

end Sys2Proof.Machine
end

section
/-! PROOFS. A frame with nothing else to come: a phase takes at most two steps, and with separate lines the receiver and
the environment's clock are left alone (20_memory.md rule R76). -/

namespace Sys2Proof.Machine

/-- With nothing to come and the detector quiet, the phase ends after one passing of time at most. -/
theorem quiet_phase {t : State} (hscript : t.env.script = []) (hedge : edgeDue t = false)
    (hflight : t.tx.phase ≠ .idle) (hdeadline : t.env.now ≤ t.tx.deadline) :
    ∃ q, ReachesWithin 2 t (txStep { t with env := { t.env with now := t.tx.deadline }, pulses := q }) := by
  have hreset : resetDue t.env.now t.env.script = none := by rw [hscript]; rfl
  rcases Nat.eq_or_lt_of_le hdeadline with hnow | hahead
  · refine ⟨t.pulses, 1, by decide, ?_⟩
    rw [← hnow]
    simp only [stepN, txStepIsTakenAtTheDeadline t hreset hedge hflight hnow]
  · have hdue : txDue t = false := by simp [txDue, hahead.ne]
    have hpass : step t =
        .next { t with env := { t.env with now := t.tx.deadline }, pulses := ⟨false, false, false⟩ } := by
      rw [step_passTime ⟨hreset, hedge, hdue⟩ (by rw [hscript]; rfl), passTime_eq,
        nextInstant_deadline hscript hflight hahead]
    exact ⟨_, (ReachesWithin.of_step hpass).trans
      (.of_step (txStepIsTakenAtTheDeadline _ (by simp [hscript, resetDue]) hedge hflight rfl))⟩

/-- What a frame leaves alone when nothing else happens and the lines are separate. -/
def Undisturbed (u v : State) : Prop :=
  v.rx = u.rx ∧ v.latch = u.latch ∧ v.env.script = u.env.script ∧ v.env.clockIn = u.env.clockIn

/-- With separate lines the environment's side notes nothing of data_out. -/
theorem carryData_separate {s : State} (h : s.cfg.wiring = .separate) (v : Bit) : carryData v s = s.env := by
  simp [carryData, h]

/-- With separate lines the edge detector looks at the environment's clock alone. -/
theorem edgeDue_separate {s : State} (h : s.cfg.wiring = .separate) :
    edgeDue s = (s.rx.cinPrev != s.env.clockIn) := by
  simp [edgeDue, levelClockIn, h]

theorem txStep_undisturbed (s : State) : Undisturbed s (txStep s) := by
  obtain ⟨m, h, -⟩ := txStep_frame s
  rw [h]
  exact ⟨rfl, rfl, rfl, rfl⟩

/-- One phase of an undisturbed frame takes at most two steps. -/
theorem undisturbed_phase {u t : State} (hwiring : t.cfg.wiring = .separate) (hscript : u.env.script = [])
    (hsteady : u.rx.cinPrev = u.env.clockIn) (ht : t.Inv) (hflight : t.tx.phase ≠ .idle) (h : Undisturbed u t) :
    ∃ v, ReachesWithin 2 t v ∧ v.tx = (txStep t).tx ∧ v.env.now = t.tx.deadline ∧ Undisturbed u v := by
  obtain ⟨hrx, hlatch, hscript', hclock⟩ := h
  obtain ⟨-, -, -, hdeadline⟩ := ht.txGood.inFlight hflight
  have hedge : edgeDue t = false := by simp [edgeDue_separate hwiring, hrx, hclock, hsteady]
  obtain ⟨q, hreach⟩ := quiet_phase (hscript'.trans hscript) hedge hflight hdeadline
  refine ⟨_, hreach, txStep_tx_congr rfl rfl, txStep_now _, ?_⟩
  obtain ⟨hrx', hlatch', hscript'', hclock'⟩ :=
    txStep_undisturbed { t with env := { t.env with now := t.tx.deadline }, pulses := q }
  exact ⟨hrx'.trans hrx, hlatch'.trans hlatch, hscript''.trans hscript', hclock'.trans hclock⟩

/-- An undisturbed frame is at rest after at most 2 * 97 steps. -/
theorem undisturbed_rest {u : State} {W : Word24} {T : Nat} (hu : u.Inv) (hstart : u.tx = beforeBit W T 0)
    (hwiring : u.cfg.wiring = .separate) (hscript : u.env.script = []) (hsteady : u.rx.cinPrev = u.env.clockIn) :
    ∃ v, ReachesWithin 194 u v ∧ v.tx = ⟨W, false, .idle, 23, T + 24 * (200 + 2 * u.timing.halfCycle), true, true⟩ ∧
      v.env.now = T + 24 * (200 + 2 * u.timing.halfCycle) ∧ Undisturbed u v := by
  obtain ⟨v, -, hrest, hnow, hreach, hsame⟩ :=
    reaches_rest (P := fun j t => ReachesWithin (2 * j) u t ∧ Undisturbed u t) hu hstart
      ⟨.refl u, rfl, rfl, rfl, rfl⟩ fun j t ht hflight ⟨hreach, hsame⟩ => by
        obtain ⟨-, hcfg⟩ := hreach.reaches.inv_cfg hu
        obtain ⟨v, hreach', htx, hnow, hsame'⟩ :=
          undisturbed_phase (by rw [hcfg]; exact hwiring) hscript hsteady ht hflight hsame
        exact ⟨v, hreach'.reaches, htx, hnow, hreach.trans hreach', hsame'⟩
  exact ⟨v, hreach, hrest, hnow, hsame⟩

end Sys2Proof.Machine
end

section
/-! PROOFS. No step stops (60_exceptions.md rules R195, R199): a well-formed instruction completes in a good state, and
so does a step. -/

namespace Sys2Proof.Machine

/-- A well-formed instruction completes in a good state. -/
theorem exec_completes {i : Instr} {s : State} (hi : i.WellFormed) (hs : s.Inv) : ∃ t, exec i s = .next t := by
  obtain ⟨⟨hbaud, hcap, -⟩, -, hacc, -⟩ := hs
  have htxFrame (W : Word24) : ∃ t, exec (.txFrame W) s = .next t := by
    rcases hb : s.tx.busy with _ | _
    · exact ⟨_, exec_txFrame_free hb W⟩
    · exact ⟨_, exec_txFrame_busy hb W⟩
  by_cases hf : i.isFrameWord = true
  · obtain ⟨W, -, hx⟩ := exec_frameWord hf
    exact ⟨_, hx s⟩
  cases i with
  | checksum a b => exact ⟨_, exec_checksum a b s⟩
  | encode c =>
    rcases hc : s.cfg.cmdTable[c]? with _ | p
    · exact ⟨_, by simp only [exec, execEncode, encodeCommand_unknown hc]; rfl⟩
    · exact ⟨_, exec_encode_known hc⟩
  | toBits F => exact ⟨_, exec_toBits F s⟩
  | fromBits bs => exact ⟨_, exec_fromBits (by simpa [Instr.WellFormed, Instr.formError] using hi) s⟩
  | timing b =>
    have hb : b ≠ 0 := by simpa [Instr.WellFormed, Instr.formError] using hi
    exact ⟨_, exec_timing (Nat.pos_of_ne_zero hb) s⟩
  | send c =>
    rcases hc : s.cfg.cmdTable[c]? with _ | p
    · exact ⟨_, by simp only [exec, execSend, encodeCommand_unknown hc]; rfl⟩
    · rw [exec_send_known hc]; exact htxFrame _
  | txFrame W => exact htxFrame W
  | rxEdge t d =>
    rcases hen : s.rx.rxEnabled with _ | _
    · exact ⟨_, exec_rxEdge_disabled t d hen⟩
    · exact ⟨_, exec_rxEdge_enabled t d hen⟩
  | rxEnable => exact ⟨_, rfl⟩
  | rxDisable => exact ⟨_, rfl⟩
  | asmPoll =>
    by_cases hcount : s.cfg.frameThreshold ≤ s.rx.bitCount
    · exact ⟨_, exec_asmPoll_complete hcount (hcap.trans_eq hacc.symm)⟩
    · exact ⟨_, exec_asmPoll_incomplete (Nat.lt_of_not_le hcount)⟩
  | reset => exact ⟨_, exec_reset hbaud⟩
  | _ => exact absurd rfl hf

/-- A well-formed event asks for a well-formed instruction. -/
theorem eventInstr_wellFormed {s : State} {e : Event} {i : Instr} (he : e.wellFormed = true)
    (hi : eventInstr s e = some i) : i.WellFormed := by
  cases e with
  | asmPoll =>
    rcases hcap : capturedInstr s with _ | j <;> simp only [eventInstr, hcap, Option.some.injEq] at hi <;> subst hi
    · rfl
    · obtain ⟨-, -, hdec⟩ := captured_cases hcap
      obtain ⟨-, hwf, -⟩ := decodeWord_ok hdec
      exact hwf
  | lines c d => nomatch hi
  | fromBits bs =>
    obtain rfl := Option.some.inj hi
    simpa [Event.wellFormed, Instr.WellFormed, Instr.formError] using he
  | timing b =>
    obtain rfl := Option.some.inj hi
    simpa [Event.wellFormed, Instr.WellFormed, Instr.formError] using he
  | _ => obtain rfl := Option.some.inj hi; rfl

/-- A step from a good state completes. -/
theorem step_completes {s : State} (hs : s.Inv) : ∃ t, step s = .next t := by
  have ⟨⟨hbaud, _⟩, _, _, _, _, _, _, _, hevents⟩ := hs
  rcases step_cases s with ⟨o, rest, -, hstep⟩ | ⟨-, -, hedge⟩ | ⟨-, -, -, hstep⟩ | ⟨-, e, rest, hev, hrun⟩ |
    ⟨-, -, hstep⟩
  · obtain ⟨c, d, m, hfold, -⟩ := foldl_applyLines o s
    exact ⟨_, hstep.trans (exec_reset (by rw [hfold]; exact hbaud))⟩
  · rcases hedge with ⟨u, d, hdet, hstep⟩ | ⟨u, -, hstep⟩
    · obtain ⟨t, ht⟩ := exec_completes (i := .rxEdge u.env.now d) rfl (detectEdge_keeps_inv hs hdet)
      exact ⟨t, hstep.trans ht⟩
    · exact ⟨u, hstep⟩
  · exact ⟨_, hstep⟩
  · rcases hrun with ⟨i, hi, hstep⟩ | ⟨-, hstep⟩
    · obtain ⟨τ, hscript, -⟩ := eventDue_some hev
      have he : e.wellFormed = true := hevents ⟨τ, e⟩ (by rw [hscript]; exact List.mem_cons_self)
      obtain ⟨t, ht⟩ := exec_completes (eventInstr_wellFormed he hi)
        (withScript_keeps_inv hs (eventDue_suffix hev))
      exact ⟨t, hstep.trans ht⟩
    · exact ⟨_, hstep⟩
  · exact ⟨_, hstep⟩

end Sys2Proof.Machine
end

section
/-! PROOFS. A frame in flight whatever comes but a RESET (20_memory.md rule R74): a step is the TX_STEP at the deadline
or brings the end of the phase nearer, by the measure `beforePhaseEnd`. -/

namespace Sys2Proof.Machine

/-- No RESET is to come. -/
def NoReset (s : State) : Prop := ∀ e ∈ s.env.script, e.event ≠ .reset

/-- What can still happen before the phase ends: the events to come, each with an edge it may cause, the edge that is
due, and the passing of time. -/
def beforePhaseEnd (s : State) : Nat :=
  2 * s.env.script.length + (edgeDue s).toNat + (s.tx.deadline - s.env.now)

/-- The detector's step leaves the transmitter, the time and the script, and has seen the clock. -/
theorem step_edge_frame {s v : State} (hr : resetDue s.env.now s.env.script = none) (he : edgeDue s = true)
    (h : step s = .next v) :
    v.tx = s.tx ∧ v.env.now = s.env.now ∧ v.env.script = s.env.script ∧ edgeDue v = false := by
  obtain ⟨k, od, hdet, -⟩ := detectEdge_eq s
  rw [step_edge hr he, hdet] at h
  rcases od with _ | d
  · obtain rfl := Host.Outcome.next.inj h
    exact ⟨rfl, rfl, rfl, by simp [edgeDue, levelClockIn]⟩
  · obtain ⟨htx, henv⟩ := exec_tx_env (by simp) h (by simp) (by simp)
    obtain ⟨hprev, -⟩ := exec_enableRegisters (by simp) h (by simp)
    have hcfg := exec_cfg h
    exact ⟨htx, by rw [henv], by rw [henv], by simp [edgeDue, levelClockIn, hprev, hcfg, htx, henv]⟩

/-- A step while a frame is in flight is the TX_STEP that ends the phase, or leaves the transmitter and brings the end
of the phase nearer. -/
theorem step_inFlight {t v : State} (ht : t.Inv) (hno : NoReset t) (hflight : t.tx.phase ≠ .idle)
    (h : step t = .next v) :
    (t.env.now = t.tx.deadline ∧ v = txStep t) ∨
      (v.tx = t.tx ∧ NoReset v ∧ beforePhaseEnd v < beforePhaseEnd t) := by
  obtain ⟨hbusy, -, -, hdeadline⟩ := ht.txGood.inFlight hflight
  have hfewer {e : Timed} {rest : List Timed} (hscript : t.env.script = e :: rest) (htx : v.tx = t.tx)
      (hnow : v.env.now = t.env.now) (hrest : v.env.script = rest) :
      v.tx = t.tx ∧ NoReset v ∧ beforePhaseEnd v < beforePhaseEnd t := by
    refine ⟨htx, fun x hx => hno x (by rw [hscript, ← hrest]; exact List.mem_cons_of_mem _ hx), ?_⟩
    have := Bool.toNat_le (edgeDue v)
    simp only [beforePhaseEnd, htx, hnow, hrest, hscript, List.length_cons]
    omega
  rcases step_cases t with ⟨o, rest, hreset, -⟩ | ⟨hreset, hedge, -⟩ | ⟨-, -, htx, hstep⟩ |
    ⟨⟨hreset, -, -⟩, e, rest, hev, hrun⟩ | ⟨⟨-, -, htx⟩, -, hstep⟩
  · rw [resetDue_eq_none hno] at hreset
    nomatch hreset
  · obtain ⟨htx, hnow, hscript, hseen⟩ := step_edge_frame hreset hedge h
    refine .inr ⟨htx, by rwa [NoReset, hscript], ?_⟩
    simp only [beforePhaseEnd, htx, hnow, hscript, hseen, hedge, Bool.toNat_true, Bool.toNat_false]
    omega
  · have hnow : t.env.now = t.tx.deadline := eq_of_beq (Bool.and_eq_true_iff.mp htx).2
    exact .inl ⟨hnow, (Host.Outcome.next.inj (hstep.symm.trans h)).symm⟩
  · obtain ⟨τ, hscript, -⟩ := eventDue_some hev
    rcases hrun with ⟨i, hi, hstep⟩ | ⟨-, hstep⟩
    · have hreset' := eventInstr_ne_reset hreset hev hi
      have hexec := hstep.symm.trans h
      obtain ⟨m, henv, -⟩ := exec_env hreset' hexec
      exact .inr (hfewer hscript (exec_tx_busy (s := t.withScript rest) hbusy hreset' hexec) (by rw [henv]; rfl)
        (by rw [henv]; rfl))
    · obtain ⟨c, d, m, hlines, -⟩ := applyLines_frame (t.withScript rest) e
      obtain rfl := Host.Outcome.next.inj (hstep.symm.trans h)
      exact .inr (hfewer hscript (by rw [hlines]; rfl) (by rw [hlines]; rfl) (by rw [hlines]; rfl))
  · obtain rfl := Host.Outcome.next.inj (hstep.symm.trans h)
    have hne : t.env.now ≠ t.tx.deadline := by simpa [txDue, hflight] using htx
    have hahead : t.env.now < t.tx.deadline := Nat.lt_of_le_of_ne hdeadline hne
    have hlater := nextInstant_gt t
    have hpassed : beforePhaseEnd (passTime t) =
        2 * t.env.script.length + (edgeDue t).toNat + (t.tx.deadline - nextInstant t) := rfl
    refine .inr ⟨rfl, hno, ?_⟩
    rw [hpassed, beforePhaseEnd]
    omega

/-- A phase of a frame in flight comes to its end, at its deadline. -/
theorem reaches_phaseEnd {t : State} (ht : t.Inv) (hno : NoReset t) (hflight : t.tx.phase ≠ .idle) :
    ∃ v, Reaches t v ∧ v.tx = (txStep t).tx ∧ v.env.now = t.tx.deadline ∧ NoReset v := by
  induction hn : beforePhaseEnd t using Nat.strong_induction_on generalizing t with
  | h n ih =>
    subst hn
    obtain ⟨v, hstep⟩ := step_completes ht
    rcases step_inFlight ht hno hflight hstep with ⟨hnow, rfl⟩ | ⟨htx, hno', hless⟩
    · obtain ⟨-, -, hscript, -⟩ := txStep_undisturbed t
      exact ⟨_, .of_step hstep, rfl, (txStep_now t).trans hnow, by rwa [NoReset, hscript]⟩
    · have hv := stepKeepsGoodStates t v ht hstep
      obtain ⟨w, hreach, htx', hnow, hno''⟩ := ih _ hless hv hno' (by rwa [htx]) rfl
      refine ⟨w, (Reaches.of_step hstep).trans hreach, ?_, by rw [hnow, htx], hno''⟩
      rw [htx', txStep_tx_congr htx (ht.timing_eq hv (step_cfg hstep))]

end Sys2Proof.Machine
end

section

open Sys2Proof Sys2Proof.Machine

/-- Settles O55: every phase ends, whatever comes before its deadline, and the rest state follows the last. -/
theorem frameReachesTheRestStateWhateverHappens : Obligations.FrameReachesTheRestStateWhateverHappens := by
  intro s u W hs hfree hno hstart
  obtain ⟨rfl, hu, htx⟩ := exec_txFrame_start hs hfree hstart
  have hno' : NoReset { startFrame W s with result := .send .started } := by
    rwa [NoReset, startFrame_env, carryData_script]
  obtain ⟨v, ⟨n, hrun⟩, hrest, hnow, -⟩ := reaches_rest (P := fun _ => NoReset) hu htx hno'
    fun _ _ ht hflight hno => reaches_phaseEnd ht hno hflight
  exact ⟨n, v, hrun, hrest, hnow⟩

/-- Settles O33: no phase takes more than two steps, and none touches anything but the transmitter. -/
theorem undisturbedFrameEndsInTheRestState : Obligations.UndisturbedFrameEndsInTheRestState := by
  intro s u W hs hfree hwiring hscript hsteady hstart
  obtain ⟨rfl, hu, htx⟩ := exec_txFrame_start hs hfree hstart
  have henv : (startFrame W s).env = s.env := carryData_separate hwiring false
  obtain ⟨v, ⟨n, hn, hrun⟩, hrest, hnow, hrx, hlatch, -⟩ :=
    undisturbed_rest hu htx hwiring ((congrArg Env.script henv).trans hscript)
      (hsteady.trans (congrArg Env.clockIn henv).symm)
  exact ⟨n, hn, v, hrun, by rw [hrest], by rw [hrest], by rw [hrest], hnow, hrx, hlatch⟩

end

section
/-! PROOFS. What the receiver of a loopback sees (00_scope.md rule R18): each TX_STEP that moves the clock is seen at
once, a rise being sampled. -/

namespace Sys2Proof.Machine

/-- The receiver's registers once the detector has seen the clock at `c`: a rise is sampled as `d` at the time `τ`. -/
def seeLevel (capacity τ : Nat) (d c : Bit) (r : RxState) : RxState :=
  if r.cinPrev = false ∧ c = true then sampleEdge capacity τ d { r with cinPrev := c } else { r with cinPrev := c }

section
variable (capacity τ : Nat) (d c : Bit)

theorem seeLevel_same {r : RxState} (h : r.cinPrev = c) : seeLevel capacity τ d c r = r := by
  subst h
  exact if_neg fun ⟨hlow, hhigh⟩ => Bool.false_ne_true (hlow.symm.trans hhigh)

theorem seeLevel_low (r : RxState) : seeLevel capacity τ d false r = { r with cinPrev := false } :=
  if_neg fun ⟨_, hhigh⟩ => Bool.false_ne_true hhigh

theorem seeLevel_rise {r : RxState} (h : r.cinPrev = false) :
    seeLevel capacity τ d true r = sampleEdge capacity τ d { r with cinPrev := true } :=
  if_pos ⟨h, rfl⟩

@[simp] theorem seeLevel_cinPrev (r : RxState) : (seeLevel capacity τ d c r).cinPrev = c := by
  unfold seeLevel; split <;> rfl

@[simp] theorem seeLevel_rxEnabled (r : RxState) : (seeLevel capacity τ d c r).rxEnabled = r.rxEnabled := by
  unfold seeLevel; split <;> rfl

end

/-- The detector's level plays no part in a sample: a rise sampled and then seen to fall leaves the sample alone. -/
theorem sampleEdge_seenHigh_seenLow {capacity τ : Nat} {d : Bit} {r : RxState} (h : r.cinPrev = false) :
    { sampleEdge capacity τ d { r with cinPrev := true } with cinPrev := false } = sampleEdge capacity τ d r := by
  cases r
  subst h
  rfl

/-- A rising edge of some width is sampled: the level of data_in if that is settled, else some level. -/
theorem detectEdge_rising {s : State} (hr : risingEdge s = true) (hz : zeroWidthPulse s = false) : ∃ d k,
    detectEdge s =
      ({ s with rx := { s.rx with cinPrev := levelClockIn s }, env := { s.env with draws := k } }, some d) ∧
    (s.env.dataMoved ≠ some s.env.now → d = levelDataIn s) := by
  by_cases hmoved : s.env.dataMoved = some s.env.now
  · exact ⟨_, _, detectEdge_unsettled hr hz (by simp [dataUnsettled, hmoved]), fun hsettled => absurd hmoved hsettled⟩
  · exact ⟨_, _, detectEdge_settled hr hz (by simp [dataUnsettled, hmoved]), fun _ => rfl⟩

/-- In loopback, with nothing to come, the enabled receiver sees the transmitter's clock before anything else. -/
theorem reaches_seeLevel {p : State} (hwiring : p.cfg.wiring = .loopback) (hscript : p.env.script = [])
    (hen : p.rx.rxEnabled = true) (hwide : zeroWidthPulse p = false) : ∃ v d,
    Reaches p v ∧ v.tx = p.tx ∧ v.env.now = p.env.now ∧ v.env.script = [] ∧
      v.rx = seeLevel p.cfg.accCapacity p.env.now d p.tx.clockOut p.rx ∧
      (p.env.dataMoved ≠ some p.env.now → d = p.tx.dataOut) := by
  have hreset : resetDue p.env.now p.env.script = none := by rw [hscript]; rfl
  have hclock : levelClockIn p = p.tx.clockOut := by simp [levelClockIn, hwiring]
  have hdata : levelDataIn p = p.tx.dataOut := by simp [levelDataIn, hwiring]
  by_cases hsame : p.rx.cinPrev = p.tx.clockOut
  · exact ⟨p, p.tx.dataOut, .refl p, rfl, rfl, hscript, (seeLevel_same _ _ _ _ hsame).symm, fun _ => rfl⟩
  have hmoved : p.rx.cinPrev ≠ levelClockIn p := by rwa [hclock]
  rcases hout : p.tx.clockOut with _ | _ <;> rw [hout] at hclock
  · refine ⟨_, p.tx.dataOut,
      .of_step (otherClockMovesOnlyUpdateTheDetector p hreset hmoved (.inl hclock)), rfl, rfl, hscript, ?_,
      fun _ => rfl⟩
    rw [seeLevel_low, hclock]
  · have hlow : p.rx.cinPrev = false := by rw [hout] at hsame; exact Bool.eq_false_of_not_eq_true hsame
    obtain ⟨hdue, hrising⟩ := risingEdge_due hen hlow hclock
    obtain ⟨d, k, hdet, hd⟩ := detectEdge_rising hrising hwide
    have hstep := step_edge hreset hdue
    rw [hdet] at hstep
    refine ⟨_, d, .of_step (hstep.trans (exec_rxEdge_enabled _ _ hen)), rfl, rfl, hscript, ?_, by rwa [← hdata]⟩
    rw [seeLevel_rise _ _ _ hlow, hclock]
    rfl

/-- Every phase has some width: with a half cycle of at least 1, a TX_STEP sets its deadline ahead. -/
theorem txStep_deadline_ahead {t : State} (hwide : 1 ≤ t.timing.halfCycle) (hflight : (txStep t).tx.phase ≠ .idle) :
    t.tx.deadline < (txStep t).tx.deadline := by
  rcases hp : t.tx.phase with _ | _ | _ | _ | _ | _
  · rw [txStep_idle hp] at hflight; exact absurd hp hflight
  · simp [txStep_porch hp]
  · simp only [txStep_setup hp]; omega
  · simp [txStep_high hp]
  · simp only [txStep_fall hp]; omega
  · by_cases hb : t.tx.bit < 23
    · simp [txStep_low_next hp hb]
    · rw [txStep_low_last hp hb] at hflight; exact absurd rfl hflight

/-- The block listens to itself: loopback, nothing to come, the receiver enabled and its detector quiet, and the end of
the phase ahead. -/
structure Looped (t : State) : Prop where
  good : t.Inv
  wiring : t.cfg.wiring = .loopback
  script : t.env.script = []
  wide : 1 ≤ t.timing.halfCycle
  enabled : t.rx.rxEnabled = true
  seen : t.rx.cinPrev = t.tx.clockOut
  ahead : t.tx.phase ≠ .idle → t.env.now < t.tx.deadline

/-- A state reached from a looped one keeps the parameters and the profile. -/
theorem Looped.kept {t v : State} (h : Looped t) (hreach : Reaches t v) :
    v.Inv ∧ v.cfg = t.cfg ∧ v.timing = t.timing := by
  obtain ⟨hv, hcfg⟩ := hreach.inv_cfg h.good
  exact ⟨hv, hcfg, h.good.timing_eq hv hcfg⟩

/-- One phase in loopback: the TX_STEP at its end is seen, and a rise after SETUP samples the bit. -/
theorem Looped.phase {t : State} (h : Looped t) (hflight : t.tx.phase ≠ .idle) : ∃ v d,
    Reaches t v ∧ Looped v ∧ v.tx = (txStep t).tx ∧ v.env.now = t.tx.deadline ∧
      v.rx = seeLevel t.cfg.accCapacity t.tx.deadline d v.tx.clockOut t.rx ∧
      (t.tx.phase = .setup → d = t.tx.dataOut) := by
  have hahead := h.ahead hflight
  have hquiet : edgeDue t = false := by simp [edgeDue, levelClockIn, h.wiring, h.seen]
  obtain ⟨q, hreach⟩ := quiet_phase h.script hquiet hflight hahead.le
  set e : State := { t with env := { t.env with now := t.tx.deadline }, pulses := q }
  have htx : (txStep e).tx = (txStep t).tx := txStep_tx_congr rfl rfl
  have hnow : (txStep e).env.now = t.tx.deadline := txStep_now e
  obtain ⟨hrx, -, hscript, -⟩ := txStep_undisturbed e
  obtain ⟨-, hcfg, -⟩ := h.kept hreach.reaches
  have hnext (hflight' : (txStep t).tx.phase ≠ .idle) := txStep_deadline_ahead h.wide hflight'
  have hwide : zeroWidthPulse (txStep e) = false := by
    have hhigh (hp : (txStep t).tx.phase = .high) : (txStep t).tx.deadline ≠ t.tx.deadline :=
      (hnext (by rw [hp]; nofun)).ne'
    simpa [zeroWidthPulse, htx, hnow] using fun _ => hhigh
  obtain ⟨v, d, hreach', htx', hnow', hscript', hrx', hd⟩ := reaches_seeLevel (by rw [hcfg]; exact h.wiring)
    (hscript.trans h.script) (by rw [hrx]; exact h.enabled) hwide
  rw [← htx', hnow, hcfg, hrx] at hrx'
  rw [htx] at htx' hd
  rw [hnow] at hnow' hd
  have hreach'' := hreach.reaches.trans hreach'
  obtain ⟨hv, hcfg', htiming⟩ := h.kept hreach''
  refine ⟨v, d, hreach'',
    ⟨hv, by rw [hcfg', h.wiring], hscript', by rw [htiming]; exact h.wide, ?_, ?_, ?_⟩, htx', hnow', hrx', fun hp => ?_⟩
  · rw [hrx', seeLevel_rxEnabled]; exact h.enabled
  · rw [hrx', seeLevel_cinPrev]
  · rw [hnow', htx']; exact hnext
  · have hsettled : (txStep e).env.dataMoved ≠ some t.tx.deadline := by
      rw [txStep_setup (s := e) hp]
      exact fun hmoved => absurd (h.good.dataMovedPast _ hmoved) (Nat.not_le.mpr hahead)
    rw [hd hsettled, txStep_setup hp]

/-- One bit in loopback is one edge, `settleUs` after its start, sampled as the bit. -/
theorem Looped.bit {t : State} {W : Word24} {S k : Nat} (h : Looped t) (hk : k < 24) (htx : t.tx = beforeBit W S k) :
    ∃ v, Reaches t v ∧ Looped v ∧ v.tx = beforeBit W (S + (200 + 2 * t.timing.halfCycle)) (k + 1) ∧
      v.rx = sampleEdge t.cfg.accCapacity (S + 100) (wireBit W k) t.rx := by
  have hlow : t.rx.cinPrev = false := by rw [h.seen, htx, beforeBit_clockOut]
  obtain ⟨v₁, d₁, hreach₁, h₁, htx₁, -, hrx₁, -⟩ := h.phase (by rw [htx]; exact (beforeBit_phase W S k).1)
  obtain ⟨-, hcfg₁, htiming₁⟩ := h.kept hreach₁
  rw [txStep_tx_beforeBit hk htx] at htx₁
  rw [htx₁, seeLevel_same _ _ _ _ hlow] at hrx₁
  obtain ⟨v₂, d₂, hreach₂, h₂, htx₂, -, hrx₂, hd₂⟩ := h₁.phase (by rw [htx₁]; nofun)
  obtain ⟨-, hcfg₂, htiming₂⟩ := h₁.kept hreach₂
  rw [txStep_tx_setup htx₁] at htx₂
  rw [htx₁] at hd₂
  rw [htx₂, hd₂ rfl, htx₁, hrx₁, hcfg₁, seeLevel_rise _ _ _ hlow] at hrx₂
  obtain ⟨v₃, d₃, hreach₃, h₃, htx₃, -, hrx₃, -⟩ := h₂.phase (by rw [htx₂]; nofun)
  obtain ⟨-, -, htiming₃⟩ := h₂.kept hreach₃
  rw [txStep_tx_high htx₂] at htx₃
  rw [htx₃, seeLevel_low, hrx₂, sampleEdge_seenHigh_seenLow hlow] at hrx₃
  obtain ⟨v₄, d₄, hreach₄, h₄, htx₄, -, hrx₄, -⟩ := h₃.phase (by rw [htx₃]; nofun)
  rw [txStep_tx_fall htx₃, htiming₃, htiming₂, htiming₁] at htx₄
  rw [htx₄, beforeBit_clockOut, seeLevel_same _ _ _ _ (by rw [hrx₃]; exact hlow), hrx₃] at hrx₄
  refine ⟨v₄, ((hreach₁.trans hreach₂).trans hreach₃).trans hreach₄, h₄, ?_, hrx₄⟩
  rw [htx₄]
  congr 1
  omega

end Sys2Proof.Machine
end

section
/-! PROOFS. A word in loopback (41_transmitter.md rules R129, R131): its 24 bits are the run of edges `sentEdges`, which
fill slots 0 to 23, and the rest edge is one more. -/

namespace Sys2Proof.Machine

/-- The edges of the first `n` bits of a word whose first bit starts at `T`, at a bit period `P` (rule R129). -/
def sentEdges (W : Word24) (T P n : Nat) : List (Nat × Bit) :=
  (List.range n).map fun k => (T + k * P + 100, wireBit W k)

theorem sentEdges_succ (W : Word24) (T P n : Nat) :
    sentEdges W T P (n + 1) = sentEdges W T P n ++ [(T + n * P + 100, wireBit W n)] := by
  simp [sentEdges, List.range_succ]

@[simp] theorem sentEdges_length (W : Word24) (T P n : Nat) : (sentEdges W T P n).length = n := by
  simp [sentEdges]

/-- Times no further apart than the silence threshold are without a gap. -/
theorem gapless_map_range {f : Nat → Nat} (h : ∀ k, f (k + 1) ≤ f k + 100000) (n : Nat) :
    gapless ((List.range n).map f) = true := by
  induction n generalizing f with
  | zero => rfl
  | succ n ih =>
    have htail := ih (f := f ∘ Nat.succ) fun k => h (k + 1)
    rw [List.range_succ_eq_map, List.map_cons, List.map_map]
    cases n with
    | zero => rfl
    | succ n =>
      rw [List.range_succ_eq_map, List.map_cons] at htail ⊢
      exact gapless_cons_cons.mpr ⟨h 0, htail⟩

theorem sentEdges_gapless (W : Word24) (T : Nat) {P : Nat} (hP : P ≤ 100000) (n : Nat) :
    gapless ((sentEdges W T P n).map Prod.fst) = true := by
  rw [sentEdges, List.map_map]
  refine gapless_map_range (fun k => ?_) n
  simp only [Function.comp, Nat.succ_mul]
  omega

theorem sampleEdges_append_one (capacity : Nat) (edges : List (Nat × Bit)) (e : Nat × Bit) (r : RxState) :
    sampleEdges capacity (edges ++ [e]) r = sampleEdge capacity e.1 e.2 (sampleEdges capacity edges r) := by
  induction edges generalizing r with
  | nil => rfl
  | cons a edges ih => simp only [List.cons_append, sampleEdges, ih]

/-- The bits of a word in loopback are the edges `sentEdges`. -/
theorem Looped.bits {u : State} {W : Word24} {T k : Nat} (h : Looped u) (htx : u.tx = beforeBit W T 0) (hk : k ≤ 24) :
    ∃ v, Reaches u v ∧ Looped v ∧ v.tx = beforeBit W (T + k * (200 + 2 * u.timing.halfCycle)) k ∧
      v.rx = sampleEdges u.cfg.accCapacity (sentEdges W T (200 + 2 * u.timing.halfCycle) k) u.rx := by
  induction k with
  | zero => exact ⟨u, .refl u, h, by simpa using htx, rfl⟩
  | succ k ih =>
    obtain ⟨t, hreach, ht, htx', hrx⟩ := ih (Nat.le_of_succ_le hk)
    obtain ⟨-, hcfg, htiming⟩ := h.kept hreach
    obtain ⟨v, hreach', hv, htx'', hrx'⟩ := ht.bit hk htx'
    refine ⟨v, hreach.trans hreach', hv, ?_, ?_⟩
    · rw [htx'', htiming, Nat.add_assoc, ← Nat.succ_mul]
    · rw [hrx', hcfg, hrx, sentEdges_succ, sampleEdges_append_one]

/-- What an empty count's receiver holds after the 24 edges of a word without silence (rule R151). -/
theorem sampleEdges_sentEdges {capacity T P : Nat} {W : Word24} {r : RxState} (hP : P ≤ 100000)
    (hempty : r.bitCount = 0) (hacc : Memory.wf capacity r.acc) (hcap : 24 ≤ capacity) :
    (sampleEdges capacity (sentEdges W T P 24) r).bitCount = 24 ∧
    (sampleEdges capacity (sentEdges W T P 24) r).lastEdgeTime = T + 23 * P + 100 ∧
    ∀ k < 24, (sampleEdges capacity (sentEdges W T P 24) r).acc[k]? = some (wireBit W k) := by
  have hgap := sentEdges_gapless W T hP 24
  have hslot : nextSlot r ((sentEdges W T P 24).map Prod.fst) = 0 :=
    nextSlot_of_startsCapture (by simp [sentEdges, List.range_succ_eq_map, startsCapture, hempty])
  refine ⟨?_, ?_, fun k hk => ?_⟩
  · rw [sampleEdges_bitCount _ _ _ hgap, hslot, sentEdges_length]
  · rw [sentEdges_succ W T P 23, sampleEdges_append_one, sampleEdge_lastEdgeTime]
  · have hsampled := sampleEdges_acc_sampled (sentEdges W T P 24) hgap hacc (by simpa using hk)
      (by rw [hslot]; omega : nextSlot r ((sentEdges W T P 24).map Prod.fst) + k < capacity)
    rw [hslot, Nat.zero_add] at hsampled
    rw [hsampled]
    simp [sentEdges, hk]

/-- A word sent to oneself: slots 0 to 23 hold its bits, and the rest edge is counted as the 25th (rule R131). -/
theorem Looped.word {u : State} {W : Word24} {T : Nat} (h : Looped u) (htx : u.tx = beforeBit W T 0)
    (hempty : u.rx.bitCount = 0) (hP : 200 + 2 * u.timing.halfCycle ≤ 100000) : ∃ v,
    Reaches u v ∧ v.tx.busy = false ∧ v.rx.bitCount = 25 ∧
      v.env.now = T + 24 * (200 + 2 * u.timing.halfCycle) ∧ ∀ k < 24, v.rx.acc[k]? = some (wireBit W k) := by
  obtain ⟨t, hreach, ht, htx', hrx⟩ := h.bits htx (Nat.le_refl 24)
  obtain ⟨⟨-, hcap, -⟩, -, hacc, -⟩ := h.good
  obtain ⟨hcount, hlast, hslots⟩ := sampleEdges_sentEdges (W := W) (T := T) hP hempty hacc hcap
  rw [← hrx] at hcount hlast hslots
  obtain ⟨v, d, hreach', -, htx'', hnow, hrx', -⟩ := ht.phase (by rw [htx']; exact (beforeBit_phase ..).1)
  rw [txStep_tx_beforeBit_last htx'] at htx''
  have hlow : t.rx.cinPrev = false := by rw [ht.seen, htx', beforeBit_clockOut]
  rw [htx'', seeLevel_rise _ _ _ hlow, htx', beforeBit_deadline] at hrx'
  have hslot : resyncedCount (T + 24 * (200 + 2 * u.timing.halfCycle)) { t.rx with cinPrev := true } = 24 :=
    (resyncedCount_noSilence (by simp only [hlast]; omega)).trans hcount
  refine ⟨v, hreach.trans hreach', by rw [htx''], ?_, by rw [hnow, htx', beforeBit_deadline], fun k hk => ?_⟩
  · rw [hrx', sampleEdge_bitCount, hslot]
  · rw [hrx', sampleEdge_acc, hslot, accWrite_other hk.ne]
    exact hslots k hk

/-- The profile of a usable baud (rules R228, R232, R233). -/
theorem timingOf_usable {b : Nat} (hlow : 11 ≤ b) (hhigh : b ≤ 500000) :
    1 ≤ (timingOf b).frontPorch ∧ 1 ≤ (timingOf b).halfCycle ∧ 200 + 2 * (timingOf b).halfCycle ≤ 100000 := by
  have hmin : 1000000 / 500000 ≤ 1000000 / b := Nat.div_le_div_left hhigh (by omega)
  have hmax : 1000000 / b ≤ 1000000 / 11 := Nat.div_le_div_left hlow (by decide)
  simp only [timingOf, usPerSecond, porchCycles]
  omega

/-- A frame started in loopback on an enabled receiver is looped once the detector has seen the clock forced low. -/
theorem looped_start {s u : State} {W : Word24} (hs : s.Inv) (hfree : s.tx.busy = false)
    (hwiring : s.cfg.wiring = .loopback) (hscript : s.env.script = []) (hen : s.rx.rxEnabled = true)
    (hporch : 1 ≤ s.timing.frontPorch) (hwide : 1 ≤ s.timing.halfCycle) (hstart : exec (.txFrame W) s = .next u) :
    ∃ v, Reaches u v ∧ Looped v ∧ v.tx = beforeBit W (s.env.now + s.timing.frontPorch) 0 ∧ v.timing = s.timing ∧
      v.rx = { s.rx with cinPrev := false } := by
  obtain ⟨rfl, hu, htx⟩ := exec_txFrame_start hs hfree hstart
  have hscript₀ : (startFrame W s).env.script = [] := by rw [startFrame_env, carryData_script, hscript]
  obtain ⟨v, d, hreach, htx', hnow, hscript', hrx, -⟩ :=
    reaches_seeLevel (p := { startFrame W s with result := .send .started }) hwiring hscript₀ hen
      (by simp [zeroWidthPulse])
  obtain ⟨hv, hcfg⟩ := hreach.inv_cfg hu
  have htiming : v.timing = s.timing := hu.timing_eq hv hcfg
  rw [startFrame_tx, seeLevel_low] at hrx
  refine ⟨v, hreach,
    ⟨hv, by rw [hcfg]; exact hwiring, hscript', by rw [htiming]; exact hwide, ?_, ?_, fun _ => ?_⟩,
    htx'.trans htx, htiming, hrx⟩
  · rw [hrx]; exact hen
  · rw [hrx, htx']; rfl
  · rw [hnow, htx', startFrame_env, carryData_now]
    exact Nat.lt_add_of_pos_right hporch

end Sys2Proof.Machine
end

section

open Sys2Proof Sys2Proof.Machine

/-- Settles O34: the frame's run in loopback is the run of its 24 edges, and the rest edge is sampled past them. -/
theorem loopbackCapturesTheWord : Obligations.LoopbackCapturesTheWord := by
  intro s u W hs hfree hwiring hscript hen hempty _ hlow hhigh hstart
  obtain ⟨hporch, hwide, hperiod⟩ := timingOf_usable hlow hhigh
  have ⟨_, hprofile, _⟩ := hs
  rw [← hprofile] at hporch hwide hperiod
  obtain ⟨t, hreach, ht, htx, htiming, hrx⟩ := looped_start hs hfree hwiring hscript hen hporch hwide hstart
  obtain ⟨v, hreach', hbusy, hcount, hnow, hslots⟩ :=
    ht.word htx (by rw [hrx]; exact hempty) (by rw [htiming]; exact hperiod)
  rw [htiming] at hnow
  obtain ⟨n, hrun⟩ := hreach.trans hreach'
  exact ⟨n, v, hrun, hbusy, hcount, hnow, hslots⟩

end

section
/-! PROOFS. The receiver's instructions (42_receiver.md rules R151, R154, R162, R163): the whole state each leaves,
and an edge on either side of the store test. -/

namespace Sys2Proof.Machine

theorem exec_rxEdge_ignored {s : State} (t : Nat) (d : Bit) (hen : s.rx.rxEnabled = false) :
    exec (.rxEdge t d) s = .next { s with result := .edge .ignored } := by
  rw [exec_rxEdge_disabled t d hen, returning_quiet s rfl rfl rfl]

/-- An edge that is not ignored writes the receiver and the value returned alone. -/
theorem exec_rxEdge_sampled {s : State} (t : Nat) (d : Bit) (hen : s.rx.rxEnabled = true) :
    exec (.rxEdge t d) s =
      .next { s with
        rx := sampleEdge s.cfg.accCapacity t d s.rx
        result := .edge (sampleResult s.cfg.accCapacity t d s.rx) } := by
  rw [exec_rxEdge_enabled t d hen, returning_quiet _ rfl rfl rfl]
  rfl

theorem exec_rxEnable (s : State) :
    exec .rxEnable s =
      .next { s with rx := { s.rx with rxEnabled := true, cinPrev := levelClockIn s }, result := .nothing } :=
  congrArg Host.Outcome.next (returning_quiet (s.withRx { s.rx.enable with cinPrev := levelClockIn s }) rfl rfl rfl)

theorem exec_rxDisable (s : State) :
    exec .rxDisable s = .next { s with rx := { s.rx with rxEnabled := false }, result := .nothing } :=
  congrArg Host.Outcome.next (returning_quiet (s.withRx s.rx.disable) rfl rfl rfl)

/-! ## The store test (rule R151, step 3) -/

theorem accWrite_below {n i : Nat} (acc : List Bit) (d : Bit) (h : i < n) : accWrite n acc i d = acc.set i d := if_pos h

theorem accWrite_full {n i : Nat} (acc : List Bit) (d : Bit) (h : n ≤ i) : accWrite n acc i d = acc :=
  if_neg (Nat.not_lt.mpr h)

theorem sampleResult_below {n t : Nat} {r : RxState} (d : Bit) (h : resyncedCount t r < n) :
    sampleResult n t d r = .stored (resyncedCount t r) d := if_pos h

theorem sampleResult_full {n t : Nat} {r : RxState} (d : Bit) (h : n ≤ resyncedCount t r) :
    sampleResult n t d r = .dropped (resyncedCount t r) := if_neg (Nat.not_lt.mpr h)

section
variable {s : State} {t i : Nat} {d : Bit} (hen : s.rx.rxEnabled = true) (hslot : resyncedCount t s.rx = i)
include hen hslot

/-- Below the capacity the sample is stored in its slot. -/
theorem exec_rxEdge_stored (hroom : i < s.cfg.accCapacity) :
    ∃ u, exec (.rxEdge t d) s = .next u ∧ u.result = .edge (.stored i d) ∧ u.rx.acc = s.rx.acc.set i d := by
  subst hslot
  exact ⟨_, exec_rxEdge_sampled t d hen, congrArg _ (sampleResult_below d hroom), accWrite_below _ d hroom⟩

/-- At the capacity or above it the sample is dropped and every slot kept. -/
theorem exec_rxEdge_dropped (hfull : s.cfg.accCapacity ≤ i) :
    ∃ u, exec (.rxEdge t d) s = .next u ∧ u.result = .edge (.dropped i) ∧ u.rx.acc = s.rx.acc := by
  subst hslot
  exact ⟨_, exec_rxEdge_sampled t d hen, congrArg _ (sampleResult_full d hfull), accWrite_full _ d hfull⟩

end

end Sys2Proof.Machine
end

section

open Sys2Proof Sys2Proof.Machine

/-- Settles O35: the disabled branch writes the result alone, and Ignored raises no pulse output. -/
theorem disabledEdgeIsIgnored : Obligations.DisabledEdgeIsIgnored := fun _ t d hdis => exec_rxEdge_ignored t d hdis

/-- Settles O36: `i` is the resynchronised count, at which `sampleEdge` stores and from which it counts. -/
theorem enabledEdgeIsSampled : Obligations.EnabledEdgeIsSampled := by
  intro s t d i hen hi
  have hslot : i = resyncedCount t s.rx := hi
  rw [exec_rxEdge_sampled t d hen, hslot]
  rfl

/-- Settles O37: the sampled edge leaves its time and an enabled receiver, so the next edge is sampled too and
resynchronises against that time. -/
theorem timestampIsAlwaysTaken : Obligations.TimestampIsAlwaysTaken := fun _ t d hen =>
  ⟨_, exec_rxEdge_sampled t d hen, sampleEdge_lastEdgeTime .., fun t' d' =>
    ⟨_, exec_rxEdge_sampled t' d' hen, sampleEdge_bitCount ..⟩⟩

/-- Settles O38: without silence the store test is on the count itself; the instances are the two sides of it. -/
theorem sampleBeyondCapacityIsDropped : Obligations.SampleBeyondCapacityIsDropped := by
  refine ⟨fun s t d hen hgap => ?_, fun s t d hen hgap => ?_⟩ <;> have hslot := resyncedCount_noSilence hgap
  · exact ⟨exec_rxEdge_stored hen hslot, exec_rxEdge_dropped hen hslot⟩
  · refine ⟨fun hcap hcount => ?_, fun hcap hcount => ?_, fun hcap hcount => ?_⟩ <;> rw [hcount] at hslot
    · obtain ⟨u, hrun, hres, -⟩ := exec_rxEdge_stored (d := d) hen hslot (by omega)
      exact ⟨u, hrun, hres⟩
    · obtain ⟨u, hrun, hres, -⟩ := exec_rxEdge_dropped (d := d) hen hslot hcap.le
      exact ⟨u, hrun, hres⟩
    · obtain ⟨u, hrun, hres, -⟩ := exec_rxEdge_dropped (d := d) hen hslot hcap.le
      exact ⟨u, hrun, hres⟩

/-- Settles O41: each writes its own registers of the receiver, and returning nothing raises no pulse output. -/
theorem enableAndDisableSetOneBit : Obligations.EnableAndDisableSetOneBit := fun s =>
  ⟨exec_rxEnable s, exec_rxDisable s⟩

end

section
/-! PROOFS. A complete capture (43_assembler.md rules R171, R172): the poll reads slots 0 to 23, and these are all that
the three fields of a frame read. -/

namespace Sys2Proof.Machine

/-- A field within the first `n` bits does not read beyond them. -/
theorem fieldAt_take (bs : List Bit) {n m : Nat} (h : m + 8 ≤ n) : fieldAt (bs.take n) m = fieldAt bs m := by
  refine fieldAt_congr fun k hk => ?_
  rw [List.getD_eq_getElem?_getD, List.getD_eq_getElem?_getD, List.getElem?_take_of_lt (by omega)]

/-- Bits beyond the 24th are ignored (40_codec.md rule R105). -/
theorem assembleFrame_take (bs : List Bit) : assembleFrame (bs.take 24) = assembleFrame bs := by
  simp only [assembleFrame, Nat.reduceAdd, Nat.reduceLeDiff, fieldAt_take]

end Sys2Proof.Machine
end

section

open Sys2Proof Sys2Proof.Machine

/-- Settles O43: the fields of slots 0 to 23 are `fieldAt`'s sums over the accumulator, and the validation that decides
between the two consumes is the checksum test on them. -/
theorem completeCaptureIsConsumed : Obligations.CompleteCaptureIsConsumed := by
  intro s hcount hlen
  refine ⟨fieldAt s.rx.acc 0, fieldAt s.rx.acc 8, fieldAt s.rx.acc 16, by simpa using fieldAt_toNat s.rx.acc 0,
    fieldAt_toNat s.rx.acc 8, fieldAt_toNat s.rx.acc 16, ?_⟩
  rw [exec_asmPoll_complete hcount hlen, bitsToFrame, assembleFrame_take, assembleFrame]
  split
  next hsum => rw [validateFrame_ok hsum, consume_ok]
  next hsum => rw [validateFrame_bad hsum, consume_bad]

end

section
/-! PROOFS. The transmit side's one error (60_exceptions.md rule R191): ENCODE and SEND of an identifier outside the
table, and what the three requests of the host can report. -/

namespace Sys2Proof.Machine

theorem exec_encode_unknown {s : State} {c : Nat} (h : s.cfg.cmdTable[c]? = none) :
    exec (.encode c) s = .next { s with result := .encode (.unknownCommandError c) } := by
  simp [exec, execEncode, encodeCommand_unknown h, returning_quiet s (r := .encode _) rfl rfl rfl]

/-- The table is looked up first, so the error is reported even while a frame is in flight (rule R123). -/
theorem exec_send_unknown {s : State} {c : Nat} (h : s.cfg.cmdTable[c]? = none) :
    exec (.send c) s =
      .next { s with pulses := { s.pulses with txUnknown := true }, result := .send (.unknownCommandError c) } := by
  simp only [exec, execSend, encodeCommand_unknown h]
  rfl

/-- TX_FRAME reports no error: the frame is started, or dropped with Busy (rule R124). -/
theorem exec_txFrame_error {s t : State} {W : Word24} (h : exec (.txFrame W) s = .next t) : t.result.error? = none := by
  rcases hb : s.tx.busy with _ | _
  · rw [← Host.Outcome.next.inj ((exec_txFrame_free hb W).symm.trans h)]; rfl
  · rw [← Host.Outcome.next.inj ((exec_txFrame_busy hb W).symm.trans h)]; rfl

/-- SEND reports no error but UnknownCommandError of its own operand: of a command in the table it is a
TX_FRAME. -/
theorem exec_send_error {s t : State} {c : Nat} {e : LinkError} (h : exec (.send c) s = .next t)
    (he : t.result.error? = some e) : e = .unknownCommandError c := by
  rcases hc : s.cfg.cmdTable[c]? with _ | p
  · rw [← Host.Outcome.next.inj ((exec_send_unknown hc).symm.trans h)] at he
    exact (Option.some.inj he).symm
  · rw [exec_txFrame_error ((exec_send_known hc).symm.trans h)] at he
    nomatch he

/-- ENCODE reports no error but UnknownCommandError of its own operand. -/
theorem exec_encode_error {s t : State} {c : Nat} {e : LinkError} (h : exec (.encode c) s = .next t)
    (he : t.result.error? = some e) : e = .unknownCommandError c := by
  rcases hc : s.cfg.cmdTable[c]? with _ | p
  · rw [← Host.Outcome.next.inj ((exec_encode_unknown hc).symm.trans h)] at he
    exact (Option.some.inj he).symm
  · rw [← Host.Outcome.next.inj ((exec_encode_known hc).symm.trans h)] at he
    nomatch he

end Sys2Proof.Machine
end

section
/-! PROOFS. The pulse outputs (60_exceptions.md rule R207): the results that raise each, and what a step does to them.
A step with no RESET due raises what one result reports, or is the passing of time. -/

namespace Sys2Proof.Machine

theorem OpResult.sentUnknown_iff (r : OpResult) :
    r.sentUnknown = true ↔ ∃ c, r = .send (.unknownCommandError c) := by
  unfold OpResult.sentUnknown; split <;> simp

theorem OpResult.polledOk_iff (r : OpResult) : r.polledOk = true ↔ ∃ F, r = .poll (.decoded F) := by
  unfold OpResult.polledOk; split <;> simp

theorem OpResult.polledBad_iff (r : OpResult) : r.polledBad = true ↔ r = .poll .decodeFailure := by
  unfold OpResult.polledBad; split <;> simp

/-- An operation that returns nothing raises no pulse. -/
theorem Pulses.raisedBy_nothing (p : Pulses) : p.raisedBy .nothing = p := rfl

theorem txStep_pulses (s : State) : (txStep s).pulses = s.pulses := by
  obtain ⟨m, h, -⟩ := txStep_frame s
  rw [h]

theorem applyLines_pulses (s : State) (e : Event) : (applyLines s e).pulses = s.pulses := by
  obtain ⟨c, d, m, h, -⟩ := applyLines_frame s e
  rw [h]

theorem detectEdge_pulses {s t : State} {od : Option Bit} (h : detectEdge s = (t, od)) : t.pulses = s.pulses := by
  obtain ⟨k, od', hd, -⟩ := detectEdge_eq s
  obtain ⟨rfl, -⟩ := Prod.mk.inj (h.symm.trans hd)
  rfl

/-- With no RESET due, a step raises the pulses of one result and lowers none, or is the passing of time. -/
theorem step_raises_or_passTime {s t : State} (hr : resetDue s.env.now s.env.script = none) (h : step s = .next t) :
    (∃ r, t.pulses = s.pulses.raisedBy r) ∨ t = passTime s := by
  rcases step_cases s with ⟨o, rest, hreset, -⟩ | ⟨-, -, hedge⟩ | ⟨-, -, -, hstep⟩ | ⟨-, e, rest, hev, hrun⟩ |
    ⟨-, -, hstep⟩
  · rw [hr] at hreset; nomatch hreset
  · rcases hedge with ⟨u, d, hdet, hstep⟩ | ⟨u, hdet, hstep⟩
    · exact .inl ⟨t.result, by rw [exec_pulses (by simp) (hstep.symm.trans h), detectEdge_pulses hdet]⟩
    · obtain rfl := Host.Outcome.next.inj (hstep.symm.trans h)
      exact .inl ⟨.nothing, detectEdge_pulses hdet⟩
  · obtain rfl := Host.Outcome.next.inj (hstep.symm.trans h)
    exact .inl ⟨.nothing, txStep_pulses s⟩
  · rcases hrun with ⟨i, hi, hstep⟩ | ⟨-, hstep⟩
    · exact .inl ⟨t.result, exec_pulses (s := s.withScript rest) (eventInstr_ne_reset hr hev hi) (hstep.symm.trans h)⟩
    · obtain rfl := Host.Outcome.next.inj (hstep.symm.trans h)
      exact .inl ⟨.nothing, applyLines_pulses (s.withScript rest) e⟩
  · exact .inr (Host.Outcome.next.inj (hstep.symm.trans h)).symm

/-- A step that moves time forward is the passing of time: a RESET puts `now` at 0. -/
theorem step_forward {s t : State} (h : step s = .next t) (hlt : s.env.now < t.env.now) : t = passTime s := by
  rcases hr : resetDue s.env.now s.env.script with _ | ⟨o, rest⟩
  · rcases step_sameInstant_or_passTime hr h with hnow | ⟨-, -, hpass⟩
    · exact absurd hnow hlt.ne'
    · exact hpass
  · rw [exec_reset_next ((step_reset hr).symm.trans h)] at hlt
    exact absurd hlt (Nat.not_lt_zero _)

end Sys2Proof.Machine
end

section

open Sys2Proof Sys2Proof.Machine

/-- Settles O12: the RESET is found behind the due events before it, and of what these do it keeps the line levels
alone. -/
theorem resetOverridesItsInstant : Obligations.ResetOverridesItsInstant := by
  intro s pre rest t hbaud hscript hpre ht
  have hdue : resetDue s.env.now s.env.script = some (pre.map (·.event), rest) :=
    hscript ▸ resetDue_found hpre ht
  obtain ⟨c, d, m, hfold, -⟩ := foldl_applyLines (pre.map (·.event)) s
  refine ⟨_, (step_reset hdue).trans (exec_reset (by rw [hfold]; exact hbaud)), ?_⟩
  rw [hfold]
  exact ⟨rfl, rfl, rfl, rfl, rfl, rfl, rfl, rfl⟩

/-- Settles O51: no branch of a step stops, as the events to come are well formed. -/
theorem goodStatesNeverStop : Obligations.GoodStatesNeverStop := fun _ hs => step_completes hs

/-- Settles O56: an instruction raises what its result reports, a step within an instant lowers nothing, and time goes
forward by `passTime` alone. -/
theorem pulsePortsLastOneClock : Obligations.PulsePortsLastOneClock := by
  refine ⟨fun i s t hi h => ?_, fun s t hr h hnow => ?_, fun s t h hlt => ?_, fun s => ⟨rfl, rfl, rfl, ?_⟩⟩
  · rw [exec_pulses hi h]
    simp [OpResult.sentUnknown_iff, OpResult.polledOk_iff, OpResult.polledBad_iff, or_comm]
  · rcases step_raises_or_passTime hr h with ⟨r, hp⟩ | rfl
    · simp +contextual [hp]
    · exact absurd hnow (nextInstant_gt s).ne'
  · rw [step_forward h hlt]
    rfl
  · cases hstatus : s.latch.status <;> simp [outPorts, OutStatus.code, hstatus]

/-- Settles O17: past the table both operations raise the error, and no request reports another. -/
theorem unknownCommandIsReportedAndChangesNothing : Obligations.UnknownCommandIsReportedAndChangesNothing := by
  refine ⟨fun s c hc => ?_, fun s t i e h he => ⟨fun W hi => ?_, fun c hi => ?_⟩⟩
  · have habsent : s.cfg.cmdTable[c]? = none := List.getElem?_eq_none hc
    exact ⟨exec_encode_unknown habsent, exec_send_unknown habsent⟩
  · subst hi
    rw [exec_txFrame_error h] at he
    nomatch he
  · rcases hi with rfl | rfl
    · exact exec_send_error h he
    · exact exec_encode_error h he

end

section
/-! PROOFS. The usable bauds (70_reset_and_hazards.md rules R228, R232, R233): a duration of the profile is at least a
given one exactly when a product is at most a second. -/

namespace Sys2Proof.Machine

theorem le_cycleDuration_iff {b : Nat} (hb : 1 ≤ b) (d : Nat) : d ≤ (timingOf b).cycleDuration ↔ d * b ≤ 1000000 :=
  Nat.le_div_iff_mul_le hb

theorem le_halfCycle_iff {b : Nat} (hb : 1 ≤ b) (d : Nat) : d ≤ (timingOf b).halfCycle ↔ d * 2 * b ≤ 1000000 :=
  (Nat.le_div_iff_mul_le Nat.two_pos).trans (le_cycleDuration_iff hb (d * 2))

theorem le_frontPorch_iff {b : Nat} (hb : 1 ≤ b) (d : Nat) : 6 * d ≤ (timingOf b).frontPorch ↔ d * b ≤ 1000000 :=
  (Nat.mul_le_mul_left_iff (by decide)).trans (le_cycleDuration_iff hb d)

theorem six_dvd_frontPorch (b : Nat) : 6 ∣ (timingOf b).frontPorch := Nat.dvd_mul_right _ _

end Sys2Proof.Machine
end

section
/-! PROOFS. A data line that holds one level for the whole capture (70_reset_and_hazards.md rule R236). -/

namespace Sys2Proof.Machine

/-- A poll of a complete capture whose 24 samples are all the same. -/
theorem exec_asmPoll_stuck {s : State} {d : Bit} (hcount : s.cfg.frameThreshold ≤ s.rx.bitCount)
    (hacc : s.rx.acc.take 24 = List.replicate 24 d) :
    exec .asmPoll s = .next (consume (bitsToFrame (List.replicate 24 d)) s) := by
  have hlen : 24 ≤ s.rx.acc.length := by
    have htake := congrArg List.length hacc
    rw [List.length_take, List.length_replicate] at htake
    omega
  rw [exec_asmPoll_complete hcount hlen, hacc]

theorem frameToBits_zeros : frameToBits ⟨0, 0, 0⟩ = List.replicate 24 false := by decide

theorem assembleFrame_ones : assembleFrame (List.replicate 24 true) = ⟨0xFF, 0xFF, 0xFF⟩ := by decide

/-- Zeros are a frame: 0 is the sum of 0 and 0. -/
theorem bitsToFrame_zeros : bitsToFrame (List.replicate 24 false) = .ok ⟨0, 0, 0⟩ := by
  rw [← frameToBits_zeros, bitsToFrame_frameToBits rfl]

/-- Ones are not: 255 and 255 add up to 254 modulo 256. -/
theorem bitsToFrame_ones : bitsToFrame (List.replicate 24 true) = .checksumMismatch := by
  rw [bitsToFrame, assembleFrame_ones, validateFrame_bad (by decide)]

end Sys2Proof.Machine
end

section

open Sys2Proof Sys2Proof.Machine

/-- Settles O26: a cycle of 99802, 16651, 200 or 2 microseconds is the least that meets or breaks the bound, and
the greatest baud that still has it is 10, 60, 5000 or 500000. -/
theorem usableBaudBounds : Obligations.UsableBaudBounds := by
  intro b hb
  refine ⟨?_, ?_, ?_, ?_⟩
  · have hperiod := le_halfCycle_iff hb 49901
    omega
  · have hporch := le_frontPorch_iff hb 16651
    have hmultiple := six_dvd_frontPorch b
    omega
  · have hsettle := le_halfCycle_iff hb 100
    omega
  · have hpulse := le_halfCycle_iff hb 1
    omega

/-- Settles O45: the poll validates a capture of one level, and the level decides the checksum test. -/
theorem stuckLowLineDeliversZero : Obligations.StuckLowLineDeliversZero := by
  refine fun s hcount => ⟨fun hzeros => ?_, fun hones => ?_⟩
  · rw [exec_asmPoll_stuck hcount hzeros, bitsToFrame_zeros, consume_ok]
  · rw [exec_asmPoll_stuck hcount hones, bitsToFrame_ones, consume_bad]

end
